-- ==== Sys2Proof/Word.lean ====
section
/-! DEFINITION. The word types of the block (00_scope.md R12): a `uN` or `sN` register is a `BitVec N`;
a signed one is read with `BitVec.toInt`. -/

namespace Sys2Proof

/-- A byte, `u8`: a FIFO byte, an 8-bit shift register, an output sample, or the bits of an `s8` sample. -/
abbrev Byte := BitVec 8

/-- A filter tap, `s16` (`W_IIR = 16`, 00_scope.md R7, 10_state.md R33, R34). -/
abbrev Tap := BitVec 16

/-- A phase of the sine table, `u9` (10_state.md R42, R43). -/
abbrev Phase := BitVec 9

/-- An event word of 12 bits: opcode `ev[11:8]`, operand `ev[7:0]` (30_encoding.md R100). -/
abbrev EventWord := BitVec 12

end Sys2Proof
end

