-- ==== Sys2Proof/Config.lean ====
section
/-! DEFINITION. The OPEN parameters of an instance of the block (00_scope.md R7): what an implementation fixes
when the instance is made and no operation writes (10_state.md R56). The spec leaves no result of an operation
undefined, so there is no opaque free value here. The fixed constants of R7 stand in Machine/Constants.lean. -/

namespace Sys2Proof

/-- The four OPEN parameters of 00_scope.md R7 (93_implementation_defined.md U7, U8, U9). -/
structure Params where
  /-- `RX_FIFO_CAP`: bytes the RX FIFO retains. -/
  rxFifoCap : Nat
  /-- `TX_FIFO_CAP`: bytes the TX FIFO retains. -/
  txFifoCap : Nat
  /-- `DAC_SAMPLE_RATE`: transmit ticks a second. -/
  dacSampleRate : Nat
  /-- `DAC_IDLE_SAMPLE`: the sample answered while the modulator is idle. -/
  dacIdleSample : Byte
  deriving DecidableEq, Repr

/-- The defaults of 00_scope.md R7, which the spec's test vectors use. -/
def Params.default : Params :=
  { rxFifoCap := 32, txFifoCap := 32, dacSampleRate := 9600, dacIdleSample := 0x00 }

end Sys2Proof
end

