-- ==== Sys2Proof/Machine/Constants.lean ====
section
/-! DEFINITION. The fixed constants of 00_scope.md R7, the rounding division of R9, and the constants of an
instance that follow from its `DAC_SAMPLE_RATE` (R7, 44_tx_dds.md R234). Several values are the spec's own
decisions, taken there from general knowledge (93_implementation_defined.md G1 to G7; log 17). -/

namespace Sys2Proof.Machine

/-- Line bit rate, bits a second. -/
def BIT_RATE : Nat := 1200
/-- Received samples a second (D4). -/
def RX_SAMPLE_RATE : Nat := 9600
/-- Received samples in a nominal bit. -/
def SPB_RX : Nat := 8
/-- Cells of the delay line. -/
def DELAY_LEN : Nat := 4
/-- Right shift of the product before the filter (D6). -/
def PRESCALE_SHIFT : Nat := 2
/-- Width of a filter tap in bits (D7). -/
def W_IIR : Nat := 16
/-- Phase step of each received sample (D8). -/
def PHASE_BIT : Nat := 8
/-- Phase correction at an edge (D8). -/
def PHASE_INC : Nat := 1
/-- Phase modulus (D8). -/
def PHASE_MAX : Nat := 64
/-- Phase threshold. -/
def PHASE_THRES : Nat := 32
/-- The flag byte and the flag pattern. -/
def HDLC_FLAG : Byte := 0x7E
/-- The abort byte (D11). -/
def HDLC_RESET : Byte := 0x7F
/-- The escape sentinel (D11). -/
def ESC : Byte := 0x1B
/-- Ones after which a zero is stuffed. -/
def STUFF_LEN : Nat := 5
/-- Length of the full-wave sine table (D17). -/
def SIN_LEN : Nat := 512
/-- The MARK tone in hertz. -/
def MARK_FREQ : Nat := 1200
/-- The SPACE tone in hertz. -/
def SPACE_FREQ : Nat := 2200

/-- `div_round(a, b) = (a + b div 2) div b`: to the nearest, a half up (00_scope.md R9, D18). -/
def divRound (a b : Nat) : Nat := (a + b / 2) / b

end Sys2Proof.Machine

namespace Sys2Proof.Params

/-- `SPB_TX`: transmit ticks in a bit slot (00_scope.md R7). -/
def spbTx (p : Params) : Nat := p.dacSampleRate / Machine.BIT_RATE

/-- The width of `S.M.sample_countdown`: the least number of bits that holds `SPB_TX` (10_state.md R44, D31). -/
def countdownWidth (p : Params) : Nat := Nat.log2 p.spbTx + 1

/-- What `S.M.sample_countdown` holds once `n` is written to it: its width is `countdownWidth`. -/
def countdownReg (p : Params) (n : Nat) : Nat := n % 2 ^ p.countdownWidth

/-- `MARK_INC` as a number (44_tx_dds.md R234). -/
def markIncNat (p : Params) : Nat := Machine.divRound (Machine.SIN_LEN * Machine.MARK_FREQ) p.dacSampleRate

/-- `SPACE_INC` as a number (44_tx_dds.md R234). -/
def spaceIncNat (p : Params) : Nat := Machine.divRound (Machine.SIN_LEN * Machine.SPACE_FREQ) p.dacSampleRate

/-- `MARK_INC` as the `u9` value `S.M.phase_inc` holds; R8 has it below `SIN_LEN`. -/
def markInc (p : Params) : Phase := BitVec.ofNat 9 p.markIncNat

/-- `SPACE_INC` as the `u9` value `S.M.phase_inc` holds; R8 has it below `SIN_LEN`. -/
def spaceInc (p : Params) : Phase := BitVec.ofNat 9 p.spaceIncNat

end Sys2Proof.Params
end

