-- ==== Sys2Proof/Syntax.lean ====
section
/-! DEFINITION. The operations of the block, one constructor per row of spec/opcode_table.json
(30_encoding.md R101). Operand bits of an operation that takes no operand are not kept: all 256 values are the
same operation (R115). -/

namespace Sys2Proof

/-- The eight operations. The block is not a processor; an operation plays the part of an instruction
(00_scope.md R19). -/
inductive Instr where
  /-- `NOP` (R259). -/
  | nop
  /-- `INIT` (R258). -/
  | init
  /-- `RX_SAMPLE s` (R130): the operand byte, read as the signed sample `raw = sext_8(arg)` (R102). -/
  | rxSample (arg : Byte)
  /-- `TX_TICK` (R200). -/
  | txTick
  /-- `TX_PUSH b` (R250): the byte to append. -/
  | txPush (b : Byte)
  /-- `TX_START` (R254). -/
  | txStart
  /-- `RX_POP` (R252). -/
  | rxPop
  /-- `RD_STATUS` (R256). -/
  | rdStatus
  deriving DecidableEq, Repr

end Sys2Proof
end

