-- ==== Sys2Proof/WellFormed.lean ====
section
/-! DEFINITION. What is well formed: an instance of the block (the constraints of 00_scope.md R8, each a check of
its own) and an operation (every term of `Instr` is, its operands being bytes). -/

namespace Sys2Proof

/-- The constraints of 00_scope.md R8 on the fixed constants. -/
def constantsOk : Bool :=
  Machine.SPB_RX == 8 && Machine.DELAY_LEN == 4 && Machine.DELAY_LEN == Machine.SPB_RX / 2
    && Machine.PHASE_MAX == Machine.SPB_RX * Machine.PHASE_BIT
    && decide (0 < Machine.PHASE_INC) && decide (Machine.PHASE_INC < Machine.PHASE_BIT)
    && Machine.PHASE_THRES == Machine.PHASE_MAX / 2
    && Machine.HDLC_FLAG != Machine.HDLC_RESET && Machine.HDLC_FLAG != Machine.ESC
    && Machine.HDLC_RESET != Machine.ESC
    && Machine.W_IIR == 16 && Machine.PRESCALE_SHIFT == 2

namespace Params

/-- `DAC_SAMPLE_RATE mod BIT_RATE = 0` and `SPB_TX >= 1`. -/
def rateOk (p : Params) : Bool := p.dacSampleRate % Machine.BIT_RATE == 0 && decide (1 ≤ p.spbTx)

/-- `MARK_INC != SPACE_INC`. -/
def tonesDiffer (p : Params) : Bool := p.markIncNat != p.spaceIncNat

/-- `0 < MARK_INC < SIN_LEN`. -/
def markOk (p : Params) : Bool := decide (0 < p.markIncNat) && decide (p.markIncNat < Machine.SIN_LEN)

/-- `0 < SPACE_INC < SIN_LEN`. -/
def spaceOk (p : Params) : Bool := decide (0 < p.spaceIncNat) && decide (p.spaceIncNat < Machine.SIN_LEN)

/-- `RX_FIFO_CAP >= 2`. -/
def rxCapOk (p : Params) : Bool := decide (2 ≤ p.rxFifoCap)

/-- `TX_FIFO_CAP >= 2`. -/
def txCapOk (p : Params) : Bool := decide (2 ≤ p.txFifoCap)

/-- All the constraints of 00_scope.md R8; "a model must refuse an instantiation that breaks one". -/
def valid (p : Params) : Bool :=
  constantsOk && p.rateOk && p.tonesDiffer && p.markOk && p.spaceOk && p.rxCapOk && p.txCapOk

end Params

/-- Every operation is well formed: an operand is a byte, whose 8 bits its type holds (30_encoding.md R102). -/
def Instr.wf : Instr → Bool
  | .nop | .init | .rxSample _ | .txTick | .txPush _ | .txStart | .rxPop | .rdStatus => true

end Sys2Proof
end

