-- ==== Sys2Proof/Decode.lean ====
section
/-! DEFINITION. Decoding an event word (30_encoding.md R100 to R103, R106, R115), total on every word and
rejecting by name, and the encoder, written from the same table. -/

namespace Sys2Proof

/-- Why a word names no operation. -/
inductive Reject where
  /-- The opcode is one of the reserved `0x8` to `0xF` (R103). -/
  | reservedOpcode (op : BitVec 4)
  deriving DecidableEq, Repr

/-- `op = ev[11:8]` (R100). -/
def opOf (w : EventWord) : BitVec 4 := w.extractLsb' 8 4

/-- `arg = ev[7:0]` (R100). -/
def argOf (w : EventWord) : Byte := w.extractLsb' 0 8

/-- The operation a word names, or the reason it names none (R101, R102, R103). -/
def decode (w : EventWord) : Except Reject Instr :=
  match (opOf w).toNat with
  | 0x0 => .ok .nop
  | 0x1 => .ok .init
  | 0x2 => .ok (.rxSample (argOf w))
  | 0x3 => .ok .txTick
  | 0x4 => .ok (.txPush (argOf w))
  | 0x5 => .ok .txStart
  | 0x6 => .ok .rxPop
  | 0x7 => .ok .rdStatus
  | _ => .error (.reservedOpcode (opOf w))

/-- The opcode of an operation (R101). -/
def opcode : Instr → BitVec 4
  | .nop => 0x0
  | .init => 0x1
  | .rxSample _ => 0x2
  | .txTick => 0x3
  | .txPush _ => 0x4
  | .txStart => 0x5
  | .rxPop => 0x6
  | .rdStatus => 0x7

/-- The operand byte of the canonical spelling: 0x00 where the operation takes none (R115). -/
def operand : Instr → Byte
  | .rxSample arg => arg
  | .txPush b => b
  | .nop | .init | .txTick | .txStart | .rxPop | .rdStatus => 0x00

/-- The canonical word of an operation, `{op, arg}` (R100, R115). -/
def encode (i : Instr) : EventWord := opcode i ++ operand i

/-- A row of spec/opcode_table.json: a word `w` belongs to it when `w & mask = match`. -/
structure TableRow where
  mnemonic : String
  pattern : EventWord
  mask : EventWord
  deriving DecidableEq, Repr

/-- spec/opcode_table.json: "for every defined operation the mask is 0xF00 and the match value is `op << 8`"
(R101). -/
def opcodeTable : List TableRow :=
  [⟨"NOP", 0x000, 0xF00⟩, ⟨"INIT", 0x100, 0xF00⟩, ⟨"RX_SAMPLE", 0x200, 0xF00⟩, ⟨"TX_TICK", 0x300, 0xF00⟩,
   ⟨"TX_PUSH", 0x400, 0xF00⟩, ⟨"TX_START", 0x500, 0xF00⟩, ⟨"RX_POP", 0x600, 0xF00⟩, ⟨"RD_STATUS", 0x700, 0xF00⟩]

/-- The word belongs to the row. -/
def TableRow.covers (r : TableRow) (w : EventWord) : Bool := w &&& r.mask == r.pattern

/-- The mnemonic of an operation, as the table spells it. -/
def Instr.mnemonic : Instr → String
  | .nop => "NOP"
  | .init => "INIT"
  | .rxSample _ => "RX_SAMPLE"
  | .txTick => "TX_TICK"
  | .txPush _ => "TX_PUSH"
  | .txStart => "TX_START"
  | .rxPop => "RX_POP"
  | .rdStatus => "RD_STATUS"

/-- What the decoder reads from a word whose bits are `w`, numbered as the table numbers them. The length is
always 12 bits, known without looking at the word (R106), so a number of 4096 or more is no event word (log 13). -/
def decodeTableWord (_nbits w : Nat) : Option Instr :=
  if w < 4096 then (decode (BitVec.ofNat 12 w)).toOption else none

end Sys2Proof
end

