-- ==== Sys2Proof/Machine/State.lean ====
section
/-! DEFINITION. The state of the machine, as plain data: the spec's record `S` (10_state.md R30), and three fields
of the model: the instance's parameters, the arrivals not yet executed, and the response of the last step. -/

namespace Sys2Proof.Machine

/-- `S.DL`: the four cells of the delay line, `c0` the newest sample, `c3` the oldest; each the bits of an `s8`
(10_state.md R32). -/
structure DelayLine where
  c0 : Byte
  c1 : Byte
  c2 : Byte
  c3 : Byte
  deriving DecidableEq, Repr

/-- `S.D`, the DemodState. -/
structure DemodState where
  /-- `iir_x[0]`, the older input tap (R33). -/
  iir_x0 : Tap
  /-- `iir_x[1]`, the newer input tap (R33). -/
  iir_x1 : Tap
  /-- `iir_y[0]`, the older output tap (R34). -/
  iir_y0 : Tap
  /-- `iir_y[1]`, the newer output tap (R34). -/
  iir_y1 : Tap
  /-- Raw bit decisions, the newest in bit 0 (R35). -/
  sampled_bits : Byte
  /-- Synchronized bit decisions, the newest in bit 0 (R36). -/
  found_bits : Byte
  /-- The bit-sync phase accumulator (R37). -/
  curr_phase : BitVec 6
  deriving DecidableEq, Repr

/-- `S.H`, the HdlcRxState. -/
structure HdlcRxState where
  /-- NRZI-decoded bits, the newest in bit 0: the deframer's window (R38). -/
  demod_bits : Byte
  /-- `false` is HUNTING, `true` is IN_FRAME (R39). -/
  in_sync : Bool
  /-- The byte being assembled (R40). -/
  current_byte : Byte
  /-- Data bits of the current byte accepted so far (R41). -/
  bit_index : BitVec 3
  deriving DecidableEq, Repr

/-- `S.M`, the ModState. -/
structure ModState where
  /-- The DDS phase accumulator (R42). -/
  phase_acc : Phase
  /-- The increment of the tone being sent: `MARK_INC` or `SPACE_INC` (R43). -/
  phase_inc : Phase
  /-- Samples remaining in the current bit slot, a natural number in 0 to `SPB_TX` (R44). The register has
  `Params.countdownWidth` bits, a width that differs from instance to instance; `State.Inv.countdownFits` says that it
  holds no more (log 11). -/
  sample_countdown : Nat
  /-- The byte whose bits are being sent (R45). -/
  current_byte : Byte
  /-- The next data bit to send, 0 when no bit of the byte remains (R46). -/
  bit_mask : Byte
  /-- Whether a stuffed 0 may be inserted (R47). -/
  bit_stuff_enabled : Bool
  /-- 1 bits sent since the last 0 bit or start (R48). -/
  consecutive_ones : BitVec 4
  /-- The modulator is active (R49). -/
  sending : Bool
  deriving DecidableEq, Repr

/-- The record `S`: the whole state of the block (10_state.md R30). -/
structure Block where
  DL : DelayLine
  D : DemodState
  H : HdlcRxState
  M : ModState
  /-- The RX byte FIFO, oldest byte first (R50). -/
  RXF : List Byte
  /-- The TX byte FIFO, oldest byte first (R50). -/
  TXF : List Byte
  deriving DecidableEq, Repr

/-- The response of an operation: `resp[8]` is `ok`, `resp[7:0]` is `data` (30_encoding.md R104). -/
structure Response where
  ok : Bool
  data : Byte
  deriving DecidableEq, Repr

/-- The ports of the block (30_encoding.md R105). -/
inductive Port where
  | adc
  | dac
  | host
  deriving DecidableEq, Repr

/-- An event word arriving at a port. -/
structure Arrival where
  port : Port
  word : EventWord
  deriving DecidableEq, Repr

/-- The state of the machine. -/
structure State where
  /-- The parameters of the instance, which no operation writes (10_state.md R56, log 4). -/
  params : Params
  /-- The state of the block. -/
  S : Block
  /-- The arrivals not yet executed, in the order they will be executed (20_memory.md R84, log 1). -/
  inbox : List Arrival
  /-- The response of the operation the last step executed; no operation reads it (30_encoding.md R104, log 3). -/
  resp : Option Response
  deriving DecidableEq, Repr

/-- Why the machine stops with a fault. -/
inductive Fault where
  /-- A filter tap would not hold its value. Raised by the meaning of `RX_SAMPLE`. The spec has it a "fatal
  logic error" that no run reaches (40_rx_discriminator.md R137, 93_implementation_defined.md U1): safe (log 7). -/
  | filterOverflow
  deriving DecidableEq, Repr

/-- Why the machine refuses to go on. -/
inductive Refusal where
  /-- Raised by `exec` for an operation with no meaning yet: safe. No arm raises it. -/
  | notModelled (mnemonic : String)
  /-- Raised by `step` for an event word whose opcode is reserved (30_encoding.md R103, U2): safe. -/
  | reservedEvent (op : BitVec 4)
  /-- Raised by `step` for an instance whose parameters break a constraint (00_scope.md R8, U5): safe (log 5). -/
  | badParameters
  deriving DecidableEq, Repr

/-- The reset state of the block, field by field the table of 10_state.md R59. -/
def Block.reset (p : Params) : Block where
  DL := { c0 := 0, c1 := 0, c2 := 0, c3 := 0 }
  D := { iir_x0 := 0, iir_x1 := 0, iir_y0 := 0, iir_y1 := 0, sampled_bits := 0x00, found_bits := 0x00,
         curr_phase := 0 }
  H := { demod_bits := 0x00, in_sync := false, current_byte := 0x00, bit_index := 0 }
  M := { phase_acc := 0, phase_inc := p.markInc, sample_countdown := 0, current_byte := 0x00, bit_mask := 0x00,
         bit_stuff_enabled := true, consecutive_ones := 0, sending := false }
  RXF := []
  TXF := []

/-- The machine of an instance right after reset: no arrival, no response (log 1, log 3). -/
def State.resetWith (p : Params) : State :=
  { params := p, S := Block.reset p, inbox := [], resp := none }

/-- The machine right after reset, at the default parameters (00_scope.md R7, log 4). -/
def State.reset : State := State.resetWith Params.default

end Sys2Proof.Machine
end

