-- ==== Sys2Proof/Machine/Ops.lean ====
section
/-! DEFINITION. The storage primitives (20_memory.md R72 to R79), the updates of the state a meaning uses, the
arrival of an event and the step without one. The block raises no exception and takes no trap, so there is no
operation that takes one and none that returns (60_exceptions.md R280, R288, R289). -/

namespace Sys2Proof.Machine

/-! ## The byte FIFOs -/

/-- `FifoLen(F)` (R72). -/
def fifoLen (f : List Byte) : Nat := f.length

/-- `FifoEmpty(F)` is `FifoLen(F) = 0` (R73). -/
def fifoEmpty (f : List Byte) : Bool := fifoLen f == 0

/-- `FifoFull(F)` is `FifoLen(F) = CAP(F)`; the capacity is the number of bytes retained (R74, C3, log 12). -/
def fifoFull (cap : Nat) (f : List Byte) : Bool := fifoLen f == cap

/-- `FifoPush(F, b)` appends at the young end; every caller tests `fifoFull` first (R75, log 8). -/
def fifoPush (f : List Byte) (b : Byte) : List Byte := f ++ [b]

/-- `FifoPop(F)` removes the byte at the old end: that byte and the rest, or none where it is not defined, an empty
FIFO (R76, log 8). -/
def fifoPop : List Byte → Option (Byte × List Byte)
  | [] => none
  | b :: rest => some (b, rest)

/-! ## The delay line -/

/-- `DelayRead()` is the oldest cell (R78). -/
def DelayLine.read (dl : DelayLine) : Byte := dl.c3

/-- `DelayShift(v)` (R79). -/
def DelayLine.shift (dl : DelayLine) (v : Byte) : DelayLine := { c0 := v, c1 := dl.c0, c2 := dl.c1, c3 := dl.c2 }

/-! ## Updates of the block and of the machine -/

/-- The part of the block `RX_SAMPLE` may write (10_state.md R31). -/
def Block.withRx (B : Block) (dl : DelayLine) (d : DemodState) (h : HdlcRxState) (rxf : List Byte) : Block :=
  { B with DL := dl, D := d, H := h, RXF := rxf }

/-- The part of the block `TX_TICK` may write (10_state.md R31). -/
def Block.withTx (B : Block) (m : ModState) (txf : List Byte) : Block := { B with M := m, TXF := txf }

/-- The part of the block `TX_START` may write. -/
def Block.withM (B : Block) (m : ModState) : Block := { B with M := m }

/-- The part of the block `RX_POP` may write. -/
def Block.withRXF (B : Block) (f : List Byte) : Block := { B with RXF := f }

/-- The part of the block `TX_PUSH` may write. -/
def Block.withTXF (B : Block) (f : List Byte) : Block := { B with TXF := f }

/-- An operation leaves the block as `B` and answers `r` (30_encoding.md R104). -/
def State.answer (s : State) (B : Block) (r : Response) : State := { s with S := B, resp := some r }

/-- The response `ok = 1`, `data = 0x00`. -/
def Response.done : Response := { ok := true, data := 0x00 }

/-- The response `ok = 0`, `data = 0x00`. -/
def Response.rejected : Response := { ok := false, data := 0x00 }

/-- The response as the 9-bit word `{ok, data}` (30_encoding.md R104). -/
def Response.toWord (r : Response) : BitVec 9 := BitVec.ofBool r.ok ++ r.data

/-! ## Arrivals -/

/-- The port a word is bound to (30_encoding.md R105). The block does not check it. -/
def homePort (w : EventWord) : Port :=
  match (opOf w).toNat with
  | 0x2 => .adc
  | 0x3 => .dac
  | _ => .host

/-- The state once the oldest arrival has been taken for execution. -/
def State.taken (s : State) (rest : List Arrival) : State := { s with inbox := rest }

/-- A step with no arrival: "Nothing else changes the state of the block" (00_scope.md R10); no operation ran, so
there is no response (log 2). -/
def State.quiet (s : State) : State := { s with resp := none }

/-- The arrival of an event word at a port, to be executed next. -/
def State.arrive (s : State) (port : Port) (w : EventWord) : State :=
  { s with inbox := { port := port, word := w } :: s.inbox }

end Sys2Proof.Machine
end

