-- ==== Sys2Proof/Machine/Operands.lean ====
section
/-! DEFINITION. Operand forms and the arithmetic on them: operand assembly (30_encoding.md R102), the arithmetic
right shift (00_scope.md R13), the narrowing to a filter tap, and the shift of a bit into an 8-bit register. -/

namespace Sys2Proof.Machine

/-- `sext_8(arg)`: the signed sample of `RX_SAMPLE` (30_encoding.md R102). -/
def sample (arg : Byte) : Int := arg.toInt

/-- The arithmetic right shift of a signed value, `floor(a / 2^k)` (00_scope.md R13, D7). -/
def asr (a : Int) (k : Nat) : Int := a / 2 ^ k

/-- A value as an `s16` tap, or none where the tap would wrap: it "must never wrap" (40_rx_discriminator.md R137,
U1). -/
def tapOf (v : Int) : Option Tap :=
  if -(2 ^ 15) ≤ v ∧ v < 2 ^ 15 then some (BitVec.ofInt 16 v) else none

/-- `trunc_8((r << 1) | bit)`: the new bit becomes bit 0, the old bit 7 is lost (10_state.md R35, R36, R38). -/
def shiftIn (r : Byte) (bit : Bool) : Byte := r <<< 1 ||| (BitVec.ofBool bit).setWidth 8

/-- `(r >> 1) | (bit << 7)`: the bit enters at the top (42_rx_deframer.md R178). -/
def shiftInTop (r : Byte) (bit : Bool) : Byte := r >>> 1 ||| ((BitVec.ofBool bit).setWidth 8) <<< 7

end Sys2Proof.Machine
end

