-- ==== Sys2Proof/Machine/Flags.lean ====
section
/-! DEFINITION. Every flag and test the rules compute: the edge test (41_rx_bitsync.md R152), the patterns of the
deframer's window (30_encoding.md R111 to R113), the special byte values (42_rx_deframer.md R178), and the `STATUS`
word (10_state.md R55). -/

namespace Sys2Proof.Machine

/-- `(r ^ (r >> 1)) & 1`: the two newest bits of a shift register differ (41_rx_bitsync.md R152). -/
def edgeFound (r : Byte) : Bool := (r ^^^ (r >>> 1)) &&& 0x01 == 0x01

/-- The window is the flag pattern (42_rx_deframer.md R174). -/
def isFlag (w : Byte) : Bool := w == HDLC_FLAG

/-- The seven newest bits of the window are all 1 (42_rx_deframer.md R175, D10). -/
def isAbort (w : Byte) : Bool := w &&& 0x7F == 0x7F

/-- The newest bit of the window is 0 and the five before it are 1 (42_rx_deframer.md R177). -/
def isStuffed (w : Byte) : Bool := w &&& 0x3F == 0x3E

/-- A data byte the deframer escapes (42_rx_deframer.md R178). -/
def isSpecial (c : Byte) : Bool := c == HDLC_FLAG || c == HDLC_RESET || c == ESC

/-- An unescaped byte the framer sends without stuffing (43_tx_framer.md R205). -/
def isControl (c : Byte) : Bool := c == HDLC_FLAG || c == HDLC_RESET

/-- `v` where the condition holds, else 0. -/
def bitIf (c : Bool) (v : Byte) : Byte := if c then v else 0x00

/-- `STATUS`, computed from the state: bit 0 `RXNE`, bit 1 `RXFULL`, bit 2 `TXNF`, bit 3 `TXE`, bit 4 `SENDING`
(10_state.md R55, 45_host_fifo_ops.md R256). -/
def statusWord (p : Params) (B : Block) : Byte :=
  bitIf (!fifoEmpty B.RXF) 0x01 ||| bitIf (fifoFull p.rxFifoCap B.RXF) 0x02 ||| bitIf (!fifoFull p.txFifoCap B.TXF) 0x04
    ||| bitIf (fifoEmpty B.TXF) 0x08 ||| bitIf B.M.sending 0x10

end Sys2Proof.Machine
end

