-- ==== Sys2Proof/Machine/HostOps.lean ====
section
/-! DEFINITION. The meanings of the operations the host issues (45_host_fifo_ops.md R250 to R259). -/

namespace Sys2Proof.Machine

/-- `TX_PUSH b` (R250); a full TX FIFO drops the byte (R251). -/
def execTxPush (b : Byte) (s : State) : Host.Outcome State Fault Refusal :=
  if fifoFull s.params.txFifoCap s.S.TXF then .next (s.answer s.S Response.rejected)
  else .next (s.answer (s.S.withTXF (fifoPush s.S.TXF b)) Response.done)

/-- `RX_POP` (R252); an empty RX FIFO answers `ok = 0` (R253). -/
def execRxPop (s : State) : Host.Outcome State Fault Refusal :=
  match fifoPop s.S.RXF with
  | none => .next (s.answer s.S Response.rejected)
  | some (b, rest) => .next (s.answer (s.S.withRXF rest) { ok := true, data := b })

/-- What `TX_START` sets in an idle modulator (R254, D19). -/
def ModState.start (p : Params) (M : ModState) : ModState :=
  { M with phase_inc := p.markInc, phase_acc := 0, consecutive_ones := 0, sending := true }

/-- `TX_START` (R254): idempotent while the modulator is active. -/
def execTxStart (s : State) : Host.Outcome State Fault Refusal :=
  .next (s.answer (if s.S.M.sending then s.S else s.S.withM (s.S.M.start s.params)) Response.done)

/-- `RD_STATUS` (R256). -/
def execRdStatus (s : State) : Host.Outcome State Fault Refusal :=
  .next (s.answer s.S { ok := true, data := statusWord s.params s.S })

/-- `INIT` (R258): every field of the block takes its reset value. -/
def execInit (s : State) : Host.Outcome State Fault Refusal :=
  .next (s.answer (Block.reset s.params) Response.done)

/-- `NOP` (R259). -/
def execNop (s : State) : Host.Outcome State Fault Refusal :=
  .next (s.answer s.S Response.done)

end Sys2Proof.Machine
end

