-- ==== Sys2Proof/Machine/BitSync.lean ====
section
/-! DEFINITION. The second stage of `RX_SAMPLE`: the digital-PLL bit synchronizer (41_rx_bitsync.md R150 to R156)
and the NRZI decoder (42_rx_deframer.md R171). -/

namespace Sys2Proof.Machine

/-- `NrziDecode()`: 1 if the two newest synchronized raw bits are equal, 0 if they differ (R171). -/
def nrziDecode (found : Byte) : Bool := !edgeFound found

/-- The phase after the correction at an edge, toward `PHASE_THRES` (R153, D9). -/
def correctPhase (edge : Bool) (p : Nat) : Nat :=
  if edge then (if p < PHASE_THRES then p + PHASE_INC else p - PHASE_INC) else p

/-- The phase after the correction and the advance, before the wrap test (R153, R154). -/
def advancedPhase (D : DemodState) (sampled : Byte) : Nat :=
  correctPhase (edgeFound sampled) D.curr_phase.toNat + PHASE_BIT

/-- `BitSync(b)` (R150): the decoded bit, on a sample whose phase wraps, and the new DemodState. -/
def bitSync (b : Bool) (D : DemodState) : Option Bool × DemodState :=
  let sampled := shiftIn D.sampled_bits b
  let p := advancedPhase D sampled
  if PHASE_MAX ≤ p then
    let found := shiftIn D.found_bits (sampled.getLsbD 0)
    (some (nrziDecode found),
      { D with sampled_bits := sampled, curr_phase := BitVec.ofNat 6 (p % PHASE_MAX), found_bits := found })
  else
    (none, { D with sampled_bits := sampled, curr_phase := BitVec.ofNat 6 p })

end Sys2Proof.Machine
end

