-- ==== Sys2Proof/Machine/Deframer.lean ====
section
/-! DEFINITION. The third stage of `RX_SAMPLE`: the HDLC deframer (42_rx_deframer.md R170 to R180). -/

namespace Sys2Proof.Machine

/-- The byte being assembled is discarded: `current_byte <- 0`, `bit_index <- 0`, and the state of the deframer is
as given. -/
def HdlcRxState.restart (H : HdlcRxState) (sync : Bool) : HdlcRxState :=
  { H with in_sync := sync, current_byte := 0x00, bit_index := 0 }

/-- One push of a completed byte's bytes: it tests the FIFO for itself, and a full FIFO drops the byte and sends the
deframer to HUNTING (R179, D13). -/
def tryPush (cap : Nat) (b : Byte) (sync : Bool) (f : List Byte) : Bool × List Byte :=
  if fifoFull cap f then (false, f) else (sync, fifoPush f b)

/-- Pushing a complete byte: the escape first where the byte is special, then the byte, each push on its own (R179,
C2). -/
def pushByte (cap : Nat) (c : Byte) (sync : Bool) (f : List Byte) : Bool × List Byte :=
  if isSpecial c then
    let r := tryPush cap ESC sync f
    tryPush cap c r.1 r.2
  else tryPush cap c sync f

/-- A bit is accepted as data; the eighth completes the byte (R178). -/
def acceptBit (cap : Nat) (bit : Bool) (H : HdlcRxState) (f : List Byte) : HdlcRxState × List Byte :=
  let c := shiftInTop H.current_byte bit
  if H.bit_index = 7 then
    let r := pushByte cap c H.in_sync f
    (H.restart r.1, r.2)
  else ({ H with current_byte := c, bit_index := H.bit_index + 1 }, f)

/-- A flag: its marker is pushed where there is room, else the deframer goes to HUNTING (R174, D12, C5). -/
def acceptFlag (cap : Nat) (H : HdlcRxState) (f : List Byte) : HdlcRxState × List Byte :=
  if fifoFull cap f then (H.restart false, f) else (H.restart true, fifoPush f HDLC_FLAG)

/-- `HdlcRx(bit)` (R172): the tests in the order of R180, on the window that includes the bit (R173). -/
def hdlcRx (cap : Nat) (bit : Bool) (H : HdlcRxState) (f : List Byte) : HdlcRxState × List Byte :=
  let w := shiftIn H.demod_bits bit
  let H' := { H with demod_bits := w }
  if isFlag w then acceptFlag cap H' f
  else if isAbort w then (H'.restart false, f)
  else if !H'.in_sync then (H', f)
  else if isStuffed w then (H', f)
  else acceptBit cap bit H' f

end Sys2Proof.Machine
end

