-- ==== Sys2Proof/Machine/Discriminator.lean ====
section
/-! DEFINITION. The first stage of `RX_SAMPLE`: the front-end discriminator and its filter
(40_rx_discriminator.md R131 to R138). -/

namespace Sys2Proof.Machine

/-- The filter input `x[n] = (raw * d) >> PRESCALE_SHIFT` (R132, R133). -/
def filterInput (raw d : Byte) : Int := asr (sample raw * sample d) PRESCALE_SHIFT

/-- The feedback `(y >> 1) + (y >> 3) + (y >> 5)`, the three floors taken one by one (R134). -/
def feedback (y : Int) : Int := asr y 1 + asr y 3 + asr y 5

/-- The filter output `y[n] = x[n] + x[n-1] + (y[n-1] >> 1) + (y[n-1] >> 3) + (y[n-1] >> 5)` (R134). -/
def filterOutput (xn xp yp : Int) : Int := xn + xp + feedback yp

/-- The raw bit decision: 1 exactly when `y[n] > 0` (R136). -/
def slice (yn : Int) : Bool := decide (0 < yn)

/-- `DemodState` with the taps of a new sample: index 1 is the newer (R135). -/
def DemodState.shiftTaps (D : DemodState) (x y : Tap) : DemodState :=
  { D with iir_x0 := D.iir_x1, iir_x1 := x, iir_y0 := D.iir_y1, iir_y1 := y }

/-- `Discriminate(raw)` (R131): the raw bit decision and the new delay line and taps; none where a tap would wrap. -/
def discriminate (raw : Byte) (dl : DelayLine) (D : DemodState) : Option (Bool × DelayLine × DemodState) :=
  let xn := filterInput raw dl.read
  let yn := filterOutput xn D.iir_x1.toInt D.iir_y1.toInt
  match tapOf xn, tapOf yn with
  | some x, some y => some (slice yn, dl.shift raw, D.shiftTaps x y)
  | _, _ => none

end Sys2Proof.Machine
end

