-- ==== Sys2Proof/Machine/RxSample.lean ====
section
/-! DEFINITION. The meaning of `RX_SAMPLE`: its three stages in order (40_rx_discriminator.md R130). -/

namespace Sys2Proof.Machine

/-- The deframer runs on the sample's bit, if the synchronizer emitted one (41_rx_bitsync.md R156). -/
def deframe (cap : Nat) (e : Option Bool) (H : HdlcRxState) (f : List Byte) : HdlcRxState × List Byte :=
  match e with
  | none => (H, f)
  | some nb => hdlcRx cap nb H f

/-- The block after a received sample; none where a filter tap would wrap (40_rx_discriminator.md R130, R137). -/
def rxSample (cap : Nat) (arg : Byte) (B : Block) : Option Block :=
  match discriminate arg B.DL B.D with
  | none => none
  | some (b, dl, D1) =>
    let r := bitSync b D1
    let h := deframe cap r.1 B.H B.RXF
    some (B.withRx dl r.2 h.1 h.2)

/-- `RX_SAMPLE` (R130). A wrap of a filter tap is a fault (R137, U1); no run reaches it. -/
def execRxSample (arg : Byte) (s : State) : Host.Outcome State Fault Refusal :=
  match rxSample s.params.rxFifoCap arg s.S with
  | some B => .next (s.answer B Response.done)
  | none => .fault .filterOverflow

end Sys2Proof.Machine
end

