-- ==== Sys2Proof/Machine/Dds.lean ====
section
/-! DEFINITION. The DDS tone generator of `TX_TICK` (44_tx_dds.md R230 to R233): the quarter-wave table, its
expansion by quadrant symmetry, and the phase advance. -/

namespace Sys2Proof.Machine

/-- `SIN_QTR[0 .. 127]`, the table of R233 (D17, G6). -/
def sinQtr : List Byte :=
  [128, 129, 131, 132, 134, 135, 137, 138, 140, 142, 143, 145, 146, 148, 149, 151]
  ++ [152, 154, 155, 157, 158, 160, 162, 163, 165, 166, 167, 169, 170, 172, 173, 175]
  ++ [176, 178, 179, 181, 182, 183, 185, 186, 188, 189, 190, 192, 193, 194, 196, 197]
  ++ [198, 200, 201, 202, 203, 205, 206, 207, 208, 210, 211, 212, 213, 214, 215, 217]
  ++ [218, 219, 220, 221, 222, 223, 224, 225, 226, 227, 228, 229, 230, 231, 232, 233]
  ++ [234, 234, 235, 236, 237, 238, 238, 239, 240, 241, 241, 242, 243, 243, 244, 245]
  ++ [245, 246, 246, 247, 248, 248, 249, 249, 250, 250, 250, 251, 251, 252, 252, 252]
  ++ [253, 253, 253, 253, 254, 254, 254, 254, 254, 255, 255, 255, 255, 255, 255, 255]

theorem sinQtr_length : sinQtr.length = 128 := by simp [sinQtr]

/-- `SinRom(i)` for `0 <= i <= 127` (20_memory.md R80); the index's type leaves no other (U4, log 9). -/
def sinRom (i : Fin 128) : Byte := sinQtr[i.val]'(by rw [sinQtr_length]; exact i.isLt)

/-- The position inside the quarter wave: `h = idx mod 256`, mirrored in the second quarter (R232). -/
def quarterIndex (idx : Phase) : Fin 128 :=
  let h := idx.toNat % 256
  if hq : 128 ≤ h then ⟨255 - h, by omega⟩ else ⟨h, by omega⟩

/-- `SinSample(idx)`: the second half wave mirrors the first in the amplitude (R232, D17). -/
def sinSample (idx : Phase) : Byte :=
  let d := sinRom (quarterIndex idx)
  if 256 ≤ idx.toNat then 255 - d else d

/-- `(phase_acc + phase_inc) mod SIN_LEN`: nine bits hold 0 to 511, so the sum wraps there (R230). -/
def advanceAcc (acc inc : Phase) : Phase := acc + inc

end Sys2Proof.Machine
end

