-- ==== Sys2Proof/Machine/Framer.lean ====
section
/-! DEFINITION. The HDLC framer of `TX_TICK`: byte fetch and un-escaping, bit stuffing, NRZI coding
(43_tx_framer.md R202 to R210). -/

namespace Sys2Proof.Machine

/-- `SwitchTone()` (R209). -/
def ModState.switchTone (p : Params) (M : ModState) : ModState :=
  { M with phase_inc := if M.phase_inc = p.markInc then p.spaceInc else p.markInc }

/-- The modulator after a fetch that found a byte: `bit_stuff_enabled` and `current_byte` (R203 to R205), and the
mask at the least-significant bit (R206). -/
def ModState.load (M : ModState) (c : Byte) (stuff : Bool) : ModState :=
  { M with current_byte := c, bit_stuff_enabled := stuff, bit_mask := 0x01 }

/-- The byte fetch (R202 to R206): whether a byte is ready to send, the modulator, and the TX FIFO. Where the FIFO is
empty, at once or behind an escape, the modulator goes idle. -/
def fetch (M : ModState) (f : List Byte) : Bool × ModState × List Byte :=
  match fifoPop f with
  | none => (false, { M with sending := false }, f)
  | some (b, f1) =>
    if b = ESC then
      match fifoPop f1 with
      | none => (false, { M with bit_stuff_enabled := true, current_byte := b, sending := false }, f1)
      | some (c, f2) => (true, M.load c true, f2)
    else if isControl b then (true, M.load b false, f1)
    else (true, M.load b true, f1)

/-- The slot carries a stuffed 0 (R207). -/
def ModState.stuffDue (M : ModState) : Bool := M.bit_stuff_enabled && decide (STUFF_LEN ≤ M.consecutive_ones.toNat)

/-- The data bit selected by the mask (R208). -/
def ModState.dataBit (M : ModState) : Bool := M.current_byte &&& M.bit_mask != 0

/-- A data slot: a 1 keeps the tone and counts, a 0 switches the tone and clears the count; the mask advances
(R208). -/
def ModState.sendData (p : Params) (M : ModState) : ModState :=
  let M' := if M.dataBit then { M with consecutive_ones := M.consecutive_ones + 1 }
    else { M.switchTone p with consecutive_ones := 0 }
  { M' with bit_mask := M.bit_mask <<< 1 }

/-- The line bit of a slot: a stuffed 0 where one is due (R207), else the next data bit (R208). -/
def ModState.sendBit (p : Params) (M : ModState) : ModState :=
  if M.stuffDue then { M.switchTone p with consecutive_ones := 0 } else M.sendData p

/-- The byte in progress, or a fetch where no bit of it remains (R202, R206). -/
def ready (M : ModState) (f : List Byte) : Bool × ModState × List Byte :=
  if M.bit_mask = 0x00 then fetch M f else (true, M, f)

/-- The start-of-slot work (R200 step 1): a fetch if none is in progress, the line bit, the countdown (R210). Its
first part says whether the modulator is still active. -/
def startSlot (p : Params) (M : ModState) (f : List Byte) : Bool × ModState × List Byte :=
  let r := ready M f
  if r.1 then (true, { r.2.1.sendBit p with sample_countdown := p.countdownReg p.spbTx }, r.2.2) else r

end Sys2Proof.Machine
end

