-- ==== Sys2Proof/Machine/TxTick.lean ====
section
/-! DEFINITION. The meaning of `TX_TICK` (43_tx_framer.md R200). -/

namespace Sys2Proof.Machine

/-- The answer of a tick while the modulator is idle, or becomes idle (R201, R202, D20). -/
def idleResponse (p : Params) : Response := { ok := false, data := p.dacIdleSample }

/-- The DDS step of an active tick and its sample (44_tx_dds.md R230, R231), then the countdown (R211), which falls and so
stays within its width. -/
def ddsStep (M : ModState) : Response × ModState :=
  let acc := advanceAcc M.phase_acc M.phase_inc
  ({ ok := true, data := sinSample acc },
    { M with phase_acc := acc, sample_countdown := M.sample_countdown - 1 })

/-- The slot work of an active tick: only where a new bit slot starts (R200). -/
def slotWork (p : Params) (M : ModState) (f : List Byte) : Bool × ModState × List Byte :=
  if M.sample_countdown = 0 then startSlot p M f else (true, M, f)

/-- The response, the modulator and the TX FIFO after a tick (R200). -/
def txTick (p : Params) (M : ModState) (f : List Byte) : Response × ModState × List Byte :=
  if M.sending then
    let r := slotWork p M f
    if r.1 then
      let d := ddsStep r.2.1
      (d.1, d.2, r.2.2)
    else (idleResponse p, r.2.1, r.2.2)
  else (idleResponse p, M, f)

/-- `TX_TICK` (R200). -/
def execTxTick (s : State) : Host.Outcome State Fault Refusal :=
  let r := txTick s.params s.S.M s.S.TXF
  .next (s.answer (s.S.withTx r.2.1 r.2.2) r.1)

end Sys2Proof.Machine
end

