-- ==== Sys2Proof/Machine/Dispatch.lean ====
section
/-! DEFINITION. One arm per operation. -/

namespace Sys2Proof.Machine

def exec (i : Instr) (s : State) : Host.Outcome State Fault Refusal :=
  match i with
  | .nop => Sys2Proof.Machine.execNop s
  | .init => Sys2Proof.Machine.execInit s
  | .rxSample arg => Sys2Proof.Machine.execRxSample arg s
  | .txTick => Sys2Proof.Machine.execTxTick s
  | .txPush b => Sys2Proof.Machine.execTxPush b s
  | .txStart => Sys2Proof.Machine.execTxStart s
  | .rxPop => Sys2Proof.Machine.execRxPop s
  | .rdStatus => Sys2Proof.Machine.execRdStatus s

end Sys2Proof.Machine
end

