-- ==== Sys2Proof/Machine/Step.lean ====
section
/-! DEFINITION. One step of the machine: the oldest arrival is decoded and executed as one atomic operation
(00_scope.md R11, 20_memory.md R84). -/

namespace Sys2Proof.Machine

/-- One step. An instance whose parameters break 00_scope.md R8 is refused (log 5); a reserved event word is refused
(30_encoding.md R103); with no arrival nothing changes (00_scope.md R10, log 2). -/
def step (s : State) : Host.Outcome State Fault Refusal :=
  if s.params.valid then
    match s.inbox with
    | [] => .next s.quiet
    | a :: rest =>
      match decode a.word with
      | .ok i => exec i (s.taken rest)
      | .error (.reservedOpcode op) => .refused (.reservedEvent op)
  else .refused .badParameters

/-- `s` with the event word `w` arriving next, at the port it is bound to (30_encoding.md R105, log 2, log 13). -/
def State.withFetchWord (s : State) (_nbits w : Nat) : State :=
  s.arrive (homePort (BitVec.ofNat 12 w)) (BitVec.ofNat 12 w)

end Sys2Proof.Machine
end

