-- ==== Sys2Proof/Machine/Conventions.lean ====
section
/-! DEFINITION. The byte conventions of the two FIFOs (30_encoding.md R116, 45_host_fifo_ops.md R265): what a
conforming writer puts into the TX FIFO, and how a conforming reader reads the RX FIFO. The block itself does not
interpret the bytes it stores. -/

namespace Sys2Proof.Machine

/-- A data byte as a conforming writer writes it: the values 0x7E, 0x7F and 0x1B after an escape (R116, R265). -/
def escapeByte (v : Byte) : List Byte := if isSpecial v then [ESC, v] else [v]

/-- A payload between two flags, as a conforming writer writes it (R265): the block adds no flag of its own
(70_reset_and_hazards.md R308). -/
def writeFrame (payload : List Byte) : List Byte := HDLC_FLAG :: (payload.flatMap escapeByte ++ [HDLC_FLAG])

/-- What the bytes of a FIFO stand for (R116). -/
inductive Item where
  /-- An unescaped 0x7E: in the RX FIFO a flag was seen, in the TX FIFO "send a flag". -/
  | flag
  /-- An unescaped 0x7F: in the TX FIFO "send an abort"; the RX FIFO never holds one. -/
  | abort
  /-- A data byte, escaped or not. -/
  | data (v : Byte)
  /-- An escape with no byte after it (70_reset_and_hazards.md R307, 43_tx_framer.md R204). -/
  | loneEscape
  deriving DecidableEq, Repr

/-- What an unescaped byte stands for. -/
def itemOf (b : Byte) : Item :=
  if b = HDLC_FLAG then .flag else if b = HDLC_RESET then .abort else if b = ESC then .loneEscape else .data b

/-- A conforming reader: an escape and the byte after it are one data byte (R116). -/
def readItems : List Byte → List Item
  | [] => []
  | [b] => [itemOf b]
  | b :: v :: rest => if b = ESC then .data v :: readItems rest else itemOf b :: readItems (v :: rest)

end Sys2Proof.Machine
end

