-- ==== Sys2Proof/Machine/Runs.lean ====
section
/-! DEFINITION. Runs: a total order of operations (20_memory.md R84), as a list, and what passes through the two
FIFOs along it (20_memory.md R88). -/

namespace Sys2Proof.Machine

/-- An operation of a run with the state before and after it. -/
structure Event where
  op : Instr
  before : State
  after : State
  deriving DecidableEq, Repr

/-- The events of a run of the operations from a state; none where an operation does not complete. -/
def run : List Instr → State → Option (List Event)
  | [], _ => some []
  | i :: is, s =>
    match exec i s with
    | .next t => (run is t).map (⟨i, s, t⟩ :: ·)
    | .fault _ => none
    | .refused _ => none

/-- The state a run ends in. -/
def finish (s : State) : List Event → State
  | [] => s
  | e :: es => finish e.after es

/-- The bytes an `RX_SAMPLE` pushes where the RX FIFO has room for them, at most two (42_rx_deframer.md R174, R178,
R179): what it appends to a RX FIFO with two free entries. -/
def rxWanted (arg : Byte) (B : Block) : List Byte :=
  match rxSample (B.RXF.length + 2) arg B with
  | some C => C.RXF.drop B.RXF.length
  | none => []

/-- The bytes an `RX_SAMPLE` appended to the RX FIFO: what follows those it held before. -/
def Event.rxPushed (e : Event) : List Byte :=
  match e.op with
  | .rxSample _ => e.after.S.RXF.drop e.before.S.RXF.length
  | .nop | .init | .txTick | .txPush _ | .txStart | .rxPop | .rdStatus => []

/-- The byte an `RX_POP` returned with `ok = 1`. -/
def Event.rxPopped (e : Event) : List Byte :=
  match e.op, e.after.resp with
  | .rxPop, some ⟨true, b⟩ => [b]
  | _, _ => []

/-- The byte a `TX_PUSH` was accepted with, `ok = 1`. -/
def Event.txAccepted (e : Event) : List Byte :=
  match e.op, e.after.resp with
  | .txPush b, some ⟨true, _⟩ => [b]
  | _, _ => []

/-- The bytes a `TX_TICK` fetched from the TX FIFO: those that stood before the ones it still holds. -/
def Event.txFetched (e : Event) : List Byte :=
  match e.op with
  | .txTick => e.before.S.TXF.take (e.before.S.TXF.length - e.after.S.TXF.length)
  | .nop | .init | .rxSample _ | .txPush _ | .txStart | .rxPop | .rdStatus => []

end Sys2Proof.Machine
end

