-- ==== Sys2Proof/Machine/Trace.lean ====
section
/-! DEFINITION. The written form of events and responses, and the pseudo-operations (30_encoding.md R107, D32). -/

namespace Sys2Proof.Machine

/-- A hexadecimal digit. -/
def hexDigit (n : Nat) : String := String.singleton ("0123456789ABCDEF".toList.getD n '0')

/-- A byte, written `0xHH`. -/
def hexByte (b : Byte) : String := "0x" ++ hexDigit (b.toNat / 16) ++ hexDigit (b.toNat % 16)

/-- The written form of an event: the mnemonic and its operand, the sample in decimal (R107). -/
def writtenEvent : Instr → String
  | .nop => "NOP"
  | .init => "INIT"
  | .rxSample arg => "RX_SAMPLE " ++ toString (sample arg)
  | .txTick => "TX_TICK"
  | .txPush b => "TX_PUSH " ++ hexByte b
  | .txStart => "TX_START"
  | .rxPop => "RX_POP"
  | .rdStatus => "RD_STATUS"

/-- The written form of a response (R107). -/
def writtenResponse (r : Response) : String :=
  "-> ok=" ++ (if r.ok then "1" else "0") ++ " data=" ++ hexByte r.data

/-- `WRITE b0 b1 ...` is `TX_PUSH b0`, `TX_START`, `TX_PUSH b1`, `TX_START`, ... (R107). -/
def writeEvents (bs : List Byte) : List Instr := bs.flatMap fun b => [.txPush b, .txStart]

/-- `TICKS n` is `n` times `TX_TICK` (R107). -/
def ticksEvents (n : Nat) : List Instr := List.replicate n .txTick

/-- `SAMPLES s0 s1 ...` is `RX_SAMPLE s0`, `RX_SAMPLE s1`, ... (R107). -/
def samplesEvents (ss : List Byte) : List Instr := ss.map .rxSample

/-- A sequence of events that repeats one operation until a response ends it. -/
inductive Loop where
  | asking
  | ended
  deriving DecidableEq, Repr

/-- The operation a loop over `i` issues next, the first one included. -/
def Loop.issue (i : Instr) : Loop → Option Instr
  | .asking => some i
  | .ended => none

/-- The loop after a response. -/
def Loop.after (ends : Response → Bool) (l : Loop) (r : Response) : Loop :=
  match l with
  | .asking => if ends r then .ended else .asking
  | .ended => .ended

/-- `DRAIN` is `RX_POP` repeated until one returns `ok=0` (R107). -/
def drainIssue : Loop → Option Instr := Loop.issue .rxPop

/-- `DRAIN` after a response to its `RX_POP` (R107). -/
def drainAfter : Loop → Response → Loop := Loop.after fun r => !r.ok

end Sys2Proof.Machine
end

