-- ==== Sys2Proof/Machine/HostProcedures.lean ====
section
/-! DEFINITION. The host procedures `read`, `write`, `flush`, `init` (45_host_fifo_ops.md R261 to R265): software on
the host, not part of the block. Each is a machine of its own that says which operation it issues next and goes on
with the response; `hostRun` runs one against the block, with what the other agents do in between (log 18). -/

namespace Sys2Proof.Machine

/-- What `read` does on an empty RX FIFO: "disabled / infinite-wait / bounded-milliseconds" (R262, U12). -/
inductive ReadMode where
  | disabled
  | infiniteWait
  | bounded
  deriving DecidableEq, Repr

/-- A `read(buf, max_len, timeout)` under way (R262): the bytes stored so far, as the RX FIFO gave them. -/
structure ReadProc where
  maxLen : Nat
  mode : ReadMode
  buf : List Byte
  finished : Bool
  deriving DecidableEq, Repr

/-- A `read` that has just been called. -/
def ReadProc.begin (maxLen : Nat) (mode : ReadMode) : ReadProc := ⟨maxLen, mode, [], false⟩

/-- The operation `read` issues next: `RX_POP`, until it has returned. -/
def ReadProc.issue (r : ReadProc) : Option Instr := if r.finished then none else some .rxPop

/-- `read` after a response to its `RX_POP`; `elapsed` is the host timer's word that the timeout has passed (R262). -/
def ReadProc.after (r : ReadProc) (elapsed : Bool) (resp : Response) : ReadProc :=
  if resp.ok then
    { r with buf := r.buf ++ [resp.data], finished := decide (r.maxLen ≤ (r.buf ++ [resp.data]).length) }
  else
    { r with finished := match r.mode with
        | .disabled => true
        | .infiniteWait => false
        | .bounded => elapsed }

/-- The byte count `read` returns. -/
def ReadProc.bytesRead (r : ReadProc) : Nat := r.buf.length

/-- How `write` waits for room (R263): it issues `TX_PUSH` again until it is accepted, or it polls `RD_STATUS` until
`TXNF` reads 1 and pushes once. -/
inductive WaitForm where
  | reissue
  | poll
  deriving DecidableEq, Repr

/-- Where a `write` stands: polling for the room of a byte, pushing it, starting the modulator after it, or
returned. -/
inductive WriteStage where
  | polling (b : Byte) (rest : List Byte)
  | pushing (b : Byte) (rest : List Byte)
  | starting (rest : List Byte)
  | returned
  deriving DecidableEq, Repr

/-- A `write(buf, len)` under way (R263), with the count of bytes pushed so far. -/
structure WriteProc where
  form : WaitForm
  stage : WriteStage
  written : Nat
  deriving DecidableEq, Repr

/-- `write` before the first of the bytes still to push. -/
def WriteProc.next (form : WaitForm) (written : Nat) : List Byte → WriteProc
  | [] => ⟨form, .returned, written⟩
  | b :: rest =>
    match form with
    | .reissue => ⟨form, .pushing b rest, written⟩
    | .poll => ⟨form, .polling b rest, written⟩

/-- A `write` that has just been called. -/
def WriteProc.begin (form : WaitForm) (bs : List Byte) : WriteProc := WriteProc.next form 0 bs

/-- The operation `write` issues next (R263). -/
def WriteProc.issue (w : WriteProc) : Option Instr :=
  match w.stage with
  | .polling _ _ => some .rdStatus
  | .pushing b _ => some (.txPush b)
  | .starting _ => some .txStart
  | .returned => none

/-- `write` after a response (R263): a poll ends where `TXNF` reads 1, bit 2 of `STATUS`; a rejected push is issued
again, but after a poll it is issued once (log 18); a `TX_START` follows every byte. -/
def WriteProc.after (w : WriteProc) (resp : Response) : WriteProc :=
  match w.stage with
  | .polling b rest => if resp.data.getLsbD 2 then { w with stage := .pushing b rest } else w
  | .pushing _ rest =>
    if resp.ok || w.form == .poll then { w with stage := .starting rest, written := w.written + 1 } else w
  | .starting rest => WriteProc.next w.form w.written rest
  | .returned => w

/-- The `bytes_written` that `write` returns, once it has returned; "It returns `len`" (R263). -/
def WriteProc.bytesWritten (w : WriteProc) : Option Nat :=
  match w.stage with
  | .returned => some w.written
  | .polling _ _ | .pushing _ _ | .starting _ => none

/-- The operations `write` issues against a list of responses. -/
def WriteProc.events : List Response → WriteProc → List Instr
  | [], _ => []
  | r :: rs, w =>
    match w.issue with
    | some i => i :: (w.after r).events rs
    | none => []

/-- `flush()` is `RD_STATUS` repeated until `SENDING`, bit 4 of `STATUS`, reads 0 (R264): the operation it issues
next, its first one included. -/
def flushIssue : Loop → Option Instr := Loop.issue .rdStatus

/-- Whether a response ends `flush()` (R264). -/
def flushEnds (resp : Response) : Bool := !resp.data.getLsbD 4

/-- `flush()` after a response to its `RD_STATUS` (R264). -/
def flushAfter : Loop → Response → Loop := Loop.after flushEnds

/-- `init()` is one `INIT` (R265). -/
def initEvents : List Instr := [.init]

/-- What happens around one operation of a host procedure: what the other agents do before it, and whether the host's
timer has passed the timeout when its response comes. -/
structure Turn where
  others : List Instr
  elapsed : Bool
  deriving DecidableEq, Repr

/-- A host procedure run against the block, one operation a turn, until it returns or the turns run out: what became
of it, and the events of the run. None where an operation does not complete. -/
def hostRun {σ : Type} (issue : σ → Option Instr) (after : σ → Bool → Response → σ) :
    List Turn → σ → State → Option (σ × List Event)
  | [], c, _ => some (c, [])
  | turn :: turns, c, s =>
    match issue c with
    | none => some (c, [])
    | some i =>
      match run (turn.others ++ [i]) s with
      | none => none
      | some es =>
        let t := finish s es
        match t.resp with
        | none => none
        | some r => (hostRun issue after turns (after c turn.elapsed r) t).map fun o => (o.1, es ++ o.2)

/-- `read` against the block (R262). -/
def runRead : List Turn → ReadProc → State → Option (ReadProc × List Event) := hostRun ReadProc.issue ReadProc.after

/-- `write` against the block (R263). -/
def runWrite : List Turn → WriteProc → State → Option (WriteProc × List Event) :=
  hostRun WriteProc.issue fun w _ r => w.after r

/-- `flush` against the block (R264). -/
def runFlush : List Turn → Loop → State → Option (Loop × List Event) := hostRun flushIssue fun l _ r => flushAfter l r

end Sys2Proof.Machine
end

