-- ==== Sys2Proof/Machine/Line.lean ====
section
/-! DEFINITION. The block seen from the line, one tone per bit slot, with the analog front end left out
(43_tx_framer.md R216): the tones the framer's slots give, and a receiver fed one raw bit per slot. Both call the
definitions `TX_TICK` and `RX_SAMPLE` call. -/

namespace Sys2Proof.Machine

/-- The tones of at most `n` bit slots, from the start of a slot until the modulator goes idle. -/
def slotTones (p : Params) : Nat → ModState → List Byte → List Phase
  | 0, _, _ => []
  | n + 1, M, f =>
    let r := startSlot p M f
    if r.1 then r.2.1.phase_inc :: slotTones p n r.2.1 r.2.2 else []

/-- The raw bit a receiver makes of a tone; which tone is which raw value carries no information (30_encoding.md
R108), so it is a choice of the line: `markIs`. -/
def rawOfTone (p : Params) (markIs : Bool) (tone : Phase) : Bool := if tone = p.markInc then markIs else !markIs

/-- The receiver behind the front end: the synchronized raw bits, the deframer, the RX FIFO. -/
structure LineRx where
  found_bits : Byte
  H : HdlcRxState
  RXF : List Byte
  deriving DecidableEq, Repr

/-- One raw bit per slot: recorded (41_rx_bitsync.md R155), NRZI-decoded (42_rx_deframer.md R171), deframed. -/
def LineRx.take (cap : Nat) (r : LineRx) (raw : Bool) : LineRx :=
  let found := shiftIn r.found_bits raw
  let h := hdlcRx cap (nrziDecode found) r.H r.RXF
  { found_bits := found, H := h.1, RXF := h.2 }

/-- The receiver after a run of raw bits. -/
def LineRx.takeAll (cap : Nat) (r : LineRx) (raws : List Bool) : LineRx := raws.foldl (LineRx.take cap) r

/-- How many samples the bit synchronizer takes until it emits a bit, given the raw bit decisions to come
(41_rx_bitsync.md R157); none if they run out first. -/
def samplesToEmission : List Bool → DemodState → Option Nat
  | [], _ => none
  | b :: bs, D =>
    match bitSync b D with
    | (some _, _) => some 1
    | (none, D') => (samplesToEmission bs D').map (· + 1)

end Sys2Proof.Machine
end

