-- ==== Sys2Proof/Machine/Ring.lean ====
section
/-! DEFINITION. The ring-buffer realisations the spec gives of a FIFO (20_memory.md R77) and of the delay line
(10_state.md R32). They are realisations: their indices are no architectural state (10_state.md R58, log 19). -/

namespace Sys2Proof.Machine

/-- A ring of `CAP + 1` cells: `head` owned by the consumer, `tail` by the producer (R77). -/
structure Ring where
  cells : List Byte
  head : Nat
  tail : Nat
  deriving DecidableEq, Repr

namespace Ring

/-- The number of cells, `CAP + 1`. -/
def size (r : Ring) : Nat := r.cells.length

/-- Both indices are in 0 to `CAP`. -/
def wf (r : Ring) : Bool := decide (r.head < r.size) && decide (r.tail < r.size)

/-- Empty iff `head = tail`. -/
def empty (r : Ring) : Bool := r.head == r.tail

/-- Full iff `(tail + 1) mod (CAP + 1) = head`. -/
def full (r : Ring) : Bool := (r.tail + 1) % r.size == r.head

/-- `FifoLen = (tail - head) mod (CAP + 1)`. -/
def len (r : Ring) : Nat := (r.tail + r.size - r.head) % r.size

/-- A push writes `cell[tail]` and then advances `tail`. -/
def push (r : Ring) (b : Byte) : Ring :=
  { r with cells := r.cells.set r.tail b, tail := (r.tail + 1) % r.size }

/-- The cell a pop reads, if the index is in range. -/
def front (r : Ring) : Option Byte := r.cells[r.head]?

/-- A pop advances `head`. -/
def drop (r : Ring) : Ring := { r with head := (r.head + 1) % r.size }

/-- The sequence: `cell[head]`, `cell[head + 1 mod (CAP + 1)]`, ... up to but not including `cell[tail]`. -/
def contents (r : Ring) : List Byte := (List.range r.len).filterMap fun k => r.cells[(r.head + k) % r.size]?

end Ring

/-- The delay line as a ring of four cells with a moving index at the oldest (10_state.md R32). -/
structure DelayRing where
  cells : List Byte
  oldest : Nat
  deriving DecidableEq, Repr

namespace DelayRing

/-- Four cells, and the index at one of them. -/
def wf (r : DelayRing) : Bool := r.cells.length == DELAY_LEN && decide (r.oldest < DELAY_LEN)

/-- The sample of `k` operations after the oldest. -/
def cell (r : DelayRing) (k : Nat) : Byte := r.cells.getD ((r.oldest + k) % DELAY_LEN) 0

/-- The delay line the ring stands for. -/
def line (r : DelayRing) : DelayLine := { c0 := r.cell 3, c1 := r.cell 2, c2 := r.cell 1, c3 := r.cell 0 }

/-- The sample four operations back. -/
def read (r : DelayRing) : Byte := r.cell 0

/-- The new sample overwrites the oldest, and the index moves on. -/
def write (r : DelayRing) (v : Byte) : DelayRing :=
  { cells := r.cells.set r.oldest v, oldest := (r.oldest + 1) % DELAY_LEN }

end DelayRing

end Sys2Proof.Machine
end

