-- ==== Sys2Proof/Safety.lean ====
section
/-! DEFINITION. What counts as a safe run: the invariants of 10_state.md R57, the strengthening that makes them
inductive, and what a conforming environment issues (30_encoding.md R103, R105). -/

namespace Sys2Proof.Machine

/-- The invariants (I1) to (I12) of 10_state.md R57, for an instance `p`. I1, I2 and I6 hold by the fields' widths. -/
structure SpecInv (p : Params) (B : Block) : Prop where
  /-- (I1) -/
  phase : B.D.curr_phase.toNat < 64
  /-- (I2) -/
  index : B.H.bit_index.toNat ≤ 7
  /-- (I3) -/
  hunting : B.H.in_sync = false → B.H.bit_index = 0 ∧ B.H.current_byte = 0
  /-- (I4) -/
  unfilled : ∀ k, k ≤ 7 - B.H.bit_index.toNat → B.H.current_byte.getLsbD k = false
  /-- (I5) -/
  rxLen : fifoLen B.RXF ≤ p.rxFifoCap
  /-- (I5) -/
  txLen : fifoLen B.TXF ≤ p.txFifoCap
  /-- (I6) -/
  acc : B.M.phase_acc.toNat < 512
  /-- (I7) -/
  tone : B.M.phase_inc = p.markInc ∨ B.M.phase_inc = p.spaceInc
  /-- (I8) -/
  countdown : B.M.sample_countdown ≤ p.spbTx
  /-- (I9) -/
  mask : B.M.bit_mask = 0 ∨ ∃ k, k < 8 ∧ B.M.bit_mask = 1#8 <<< k
  /-- (I10) -/
  idle : B.M.sending = false → B.M.sample_countdown = 0 ∧ B.M.bit_mask = 0
  /-- (I11) -/
  ones : B.M.consecutive_ones.toNat ≤ 12
  /-- (I12) -/
  tapsY : (-23831 ≤ B.D.iir_y0.toInt ∧ B.D.iir_y0.toInt ≤ 23831) ∧ (-23831 ≤ B.D.iir_y1.toInt ∧ B.D.iir_y1.toInt ≤ 23831)
  /-- (I12) -/
  tapsX : (-4064 ≤ B.D.iir_x0.toInt ∧ B.D.iir_x0.toInt ≤ 4096) ∧ (-4064 ≤ B.D.iir_x1.toInt ∧ B.D.iir_x1.toInt ≤ 4096)

/-- What 43_tx_framer.md R212 says of the counter along a byte; (I11) is inductive only together with it (log 23). -/
structure FramerInv (M : ModState) : Prop where
  /-- With stuffing enabled the counter is at most 5. -/
  stuffed : M.bit_stuff_enabled = true → M.consecutive_ones.toNat ≤ 5
  /-- With stuffing disabled and bit `k` of the byte due, the byte is a flag or an abort, and the counter is at most
  `5 + k`. -/
  control : M.bit_stuff_enabled = false → M.bit_mask ≠ 0 →
    isControl M.current_byte = true ∧ ∃ k, k < 8 ∧ M.bit_mask = 1#8 <<< k ∧ M.consecutive_ones.toNat ≤ 5 + k
  /-- "The counter is 0 when such a byte ends." -/
  controlDone : M.bit_stuff_enabled = false → M.bit_mask = 0 → M.consecutive_ones = 0

/-- The invariant of the machine. -/
structure State.Inv (s : State) : Prop where
  spec : SpecInv s.params s.S
  framer : FramerInv s.S.M
  /-- The countdown stays within the width of its register (10_state.md R44). -/
  countdownFits : s.S.M.sample_countdown < 2 ^ s.params.countdownWidth

/-- A conforming environment issues no reserved word (30_encoding.md R103) and sends each event at the port it is bound
to (R105). -/
def Arrival.conforms (a : Arrival) : Bool := decide ((opOf a.word).toNat < 8) && a.port == homePort a.word

/-- A run is safe when it starts in the invariant at valid parameters and its environment conforms. -/
structure State.Safe (s : State) : Prop where
  valid : s.params.valid = true
  inv : s.Inv
  input : s.inbox.all Arrival.conforms = true

end Sys2Proof.Machine
end

