-- ==== Sys2Proof/Certificates/Slice0/Obligations.lean ====
section
/-! DEFINITION. The statements for the provers. Each docstring names the rules it formalises; where a rule rests on
one of the spec's own decisions D<n> (92_eei_decisions.md) or on an inference the spec marks as derived, it says so. -/

open Sys2Proof Sys2Proof.Machine

/-! ## Encoding -/

/-- Decoding an encoded operation gives it back; encoding a decoded word gives the word, with the operand bits cleared
where the operation takes none; exactly the words 0x800 to 0xFFF are rejected. 30_encoding.md R100 to R103, R115
(D1, D27). -/
def Obligations.EncodeThenDecodeIsIdentity : Prop :=
  (∀ i : Instr, i.wf = true → decode (encode i) = .ok i) ∧
  (∀ (w : EventWord) (i : Instr), decode w = .ok i →
    encode i = match i with
      | .rxSample _ | .txPush _ => w
      | .nop | .init | .txTick | .txStart | .rxPop | .rdStatus => w &&& 0xF00) ∧
  (∀ w : EventWord, 0x800 ≤ w.toNat ↔ ∃ r, decode w = .error r)

/-- A word belongs to exactly the opcode-table row of the operation it decodes to, and to none where it decodes to
none: no two rows overlap. 30_encoding.md R101 (D1) and spec/opcode_table.json. -/
def Obligations.TableRowsMatchTheDecoder : Prop :=
  ∀ w : EventWord, (opcodeTable.filter (·.covers w)).map (·.mnemonic) =
    match decode w with
    | .ok i => [i.mnemonic]
    | .error _ => []

/-- Words of the spec's vector V-E1 (95_test_vectors.md), written out from the encoding of 30_encoding.md R100 to
R103. A check on concrete values. -/
def Obligations.DecodesTheWordsOfTheSpec : Prop :=
  decode 0x0FF = .ok .nop ∧ decode 0x100 = .ok .init ∧ decode 0x29C = .ok (.rxSample 0x9C) ∧
  sample 0x9C = -100 ∧ decode 0x3AB = .ok .txTick ∧ decode 0x41B = .ok (.txPush 0x1B) ∧
  decode 0x500 = .ok .txStart ∧ decode 0x600 = .ok .rxPop ∧ decode 0x700 = .ok .rdStatus ∧
  decode 0x800 = .error (.reservedOpcode 0x8) ∧ decode 0xFFF = .error (.reservedOpcode 0xF)

/-! ## The step -/

/-- A step takes the oldest arrival, at whatever port, and executes the operation its word decodes to. 20_memory.md
R84, 30_encoding.md R105 (D1, D3); the list of arrivals is the model's choice (log 1). -/
def Obligations.StepExecutesTheOldestArrival : Prop :=
  ∀ (s : State) (port : Port) (w : EventWord) (rest : List Arrival) (i : Instr),
    s.params.valid = true → s.inbox = ⟨port, w⟩ :: rest → decode w = .ok i →
    step s = exec i { s with inbox := rest }

/-- A step with no arrival leaves the block, the parameters and the arrivals as they are. 00_scope.md R10; that a step
without an event exists is the model's choice (log 2). -/
def Obligations.StepWithoutArrivalChangesNothing : Prop :=
  ∀ s : State, s.params.valid = true → s.inbox = [] →
    ∃ t, step s = .next t ∧ t.S = s.S ∧ t.params = s.params ∧ t.inbox = [] ∧ t.resp = none

/-- An event word with opcode 0x8 to 0xF is refused by name. 30_encoding.md R103 (D27). -/
def Obligations.ReservedEventIsRefused : Prop :=
  ∀ (s : State) (a : Arrival) (rest : List Arrival),
    s.params.valid = true → s.inbox = a :: rest → 0x800 ≤ a.word.toNat →
    step s = .refused (.reservedEvent (a.word.extractLsb' 8 4))

/-- The step refuses an instance exactly when its parameters break a constraint of 00_scope.md R8 (marked derived); that
the refusal comes at the step is the model's choice (log 5). -/
def Obligations.BrokenInstanceIsRefused : Prop :=
  ∀ s : State, step s = .refused .badParameters ↔
    ¬ (s.params.dacSampleRate % 1200 = 0 ∧ 1 ≤ s.params.dacSampleRate / 1200 ∧
       s.params.markIncNat ≠ s.params.spaceIncNat ∧
       0 < s.params.markIncNat ∧ s.params.markIncNat < 512 ∧
       0 < s.params.spaceIncNat ∧ s.params.spaceIncNat < 512 ∧
       2 ≤ s.params.rxFifoCap ∧ 2 ≤ s.params.txFifoCap)

/-- HEADLINE. From a safe state, whatever the conforming environment issues and however many steps run, the machine
neither faults nor refuses and stays safe. 60_exceptions.md R280 (D26), R283; 10_state.md R57. -/
def Obligations.SafeRunsNeverStop : Prop :=
  ∀ (n : Nat) (s : State), s.Safe → ∃ t, Sys2Proof.core.run n s = .next t ∧ State.Safe t

/-- HEADLINE. The invariants (I1) to (I12) of 10_state.md R57, strengthened by what 43_tx_framer.md R212 says of the
counter (both marked derived; log 23), and with them the width of the countdown (10_state.md R44, D31, log 11), are kept by
every step from every state that has them. -/
def Obligations.InvariantIsKeptByEveryStep : Prop :=
  ∀ s t : State, s.params.valid = true → s.Inv → step s = .next t → t.Inv ∧ t.params = s.params

/-- The invariants hold in the reset state of every valid instance, and the default instance is valid. 10_state.md R57
(marked derived). -/
def Obligations.InvariantHoldsAtReset : Prop :=
  (∀ p : Params, (State.resetWith p).Inv) ∧ State.reset.params.valid = true

/-- Who may write what. `RX_SAMPLE` and `INIT` alone write the delay line, the DemodState and the HdlcRxState;
`TX_TICK`, `TX_START` and `INIT` alone the ModState; `RX_SAMPLE`, `RX_POP` and `INIT` alone the RX FIFO; `TX_TICK`,
`TX_PUSH` and `INIT` alone the TX FIFO; no operation the parameters or the arrivals. 10_state.md R31, 60_exceptions.md
R291. -/
def Obligations.OnlyOwnersWriteTheirState : Prop :=
  ∀ (i : Instr) (s t : State), exec i s = .next t →
    ((∀ a, i ≠ .rxSample a) → i ≠ .init → t.S.DL = s.S.DL ∧ t.S.D = s.S.D ∧ t.S.H = s.S.H) ∧
    (i ≠ .txTick → i ≠ .txStart → i ≠ .init → t.S.M = s.S.M) ∧
    ((∀ a, i ≠ .rxSample a) → i ≠ .rxPop → i ≠ .init → t.S.RXF = s.S.RXF) ∧
    (i ≠ .txTick → (∀ b, i ≠ .txPush b) → i ≠ .init → t.S.TXF = s.S.TXF) ∧
    t.params = s.params ∧ t.inbox = s.inbox

/-- The receiver's registers are invisible to every operation but `RX_SAMPLE` (and `INIT`, which overwrites them):
with other values in them the operation does the same to everything else and answers the same. 45_host_fifo_ops.md
R260 (marked derived), 10_state.md R31. -/
def Obligations.ReceiverRegistersAreInvisibleToOthers : Prop :=
  ∀ (i : Instr) (s t : State) (dl : DelayLine) (d : DemodState) (h : HdlcRxState),
    (∀ a, i ≠ .rxSample a) → i ≠ .init → exec i s = .next t →
    exec i { s with S := { s.S with DL := dl, D := d, H := h } } =
      .next { t with S := { t.S with DL := dl, D := d, H := h } }

/-! ## RX_SAMPLE: the discriminator -/

/-- The filter recurrence: the new output tap is the new input tap, the old one, and the three floors of the old output
tap. 40_rx_discriminator.md R134. -/
def Obligations.FilterRecurrence : Prop :=
  ∀ (arg : Byte) (s t : State), exec (.rxSample arg) s = .next t →
    t.S.D.iir_y1.toInt = t.S.D.iir_x1.toInt + s.S.D.iir_x1.toInt
      + Int.fdiv s.S.D.iir_y1.toInt 2 + Int.fdiv s.S.D.iir_y1.toInt 8 + Int.fdiv s.S.D.iir_y1.toInt 32

/-- The raw bit decision is 1 exactly when the filter output is positive, and enters `sampled_bits` at bit 0 while the
old bit 7 is lost. 40_rx_discriminator.md R136, 41_rx_bitsync.md R151. -/
def Obligations.SampledBitsTakeTheSignOfTheFilter : Prop :=
  ∀ (arg : Byte) (s t : State), exec (.rxSample arg) s = .next t →
    t.S.D.sampled_bits.toNat =
      (2 * s.S.D.sampled_bits.toNat + (if 0 < t.S.D.iir_y1.toInt then 1 else 0)) % 256

/-- From every state with the invariant `RX_SAMPLE` completes, answers `ok = 1`, `data = 0x00`, shifts the delay line
and the taps, and takes `floor(raw * DL[3] / 4)` as the new input tap; the transmitter, the parameters and the arrivals
are as before. 40_rx_discriminator.md R130, R132, R133, R135, R138, 20_memory.md R79 (D5, D6, D7). -/
def Obligations.RxSampleShiftsTapsAndDelayLine : Prop :=
  ∀ (arg : Byte) (s : State), s.Inv →
    ∃ t, exec (.rxSample arg) s = .next t ∧ t.resp = some ⟨true, 0x00⟩ ∧
      t.S.DL = ⟨arg, s.S.DL.c0, s.S.DL.c1, s.S.DL.c2⟩ ∧
      t.S.D.iir_x1.toInt = Int.fdiv (arg.toInt * s.S.DL.c3.toInt) 4 ∧
      t.S.D.iir_x0 = s.S.D.iir_x1 ∧ t.S.D.iir_y0 = s.S.D.iir_y1 ∧
      t.S.M = s.S.M ∧ t.S.TXF = s.S.TXF ∧ t.params = s.params ∧ t.inbox = s.inbox

/-- After four samples the delay line reads the first of them: the sample of four operations back. 20_memory.md R78,
40_rx_discriminator.md R132 (D5). -/
def Obligations.FourthSampleBackIsRead : Prop :=
  ∀ (s : State) (a b c d : Byte), s.Inv →
    ∃ es, run (samplesEvents [a, b, c, d]) s = some es ∧ (finish s es).S.DL.read = a

/-- The filter never overflows: from every state with the invariant the new taps stay in their bounds, and every
partial sum of the five terms, in any order, fits 16 signed bits. 40_rx_discriminator.md R137 (marked derived), R133;
60_exceptions.md R283. -/
def Obligations.FilterNeverOverflows : Prop :=
  ∀ (arg : Byte) (s : State), s.Inv →
    ∃ t, exec (.rxSample arg) s = .next t ∧
      (-23831 ≤ t.S.D.iir_y1.toInt ∧ t.S.D.iir_y1.toInt ≤ 23831) ∧
      (-4064 ≤ t.S.D.iir_x1.toInt ∧ t.S.D.iir_x1.toInt ≤ 4096) ∧
      ∀ terms ∈ [t.S.D.iir_x1.toInt, s.S.D.iir_x1.toInt, Int.fdiv s.S.D.iir_y1.toInt 2,
          Int.fdiv s.S.D.iir_y1.toInt 8, Int.fdiv s.S.D.iir_y1.toInt 32].sublists,
        -32768 ≤ terms.sum ∧ terms.sum ≤ 32767

/-- Silence. With the delay line and the newer input tap at 0, a sample 0 leaves them so; a positive output strictly
decreases and stays at least 0; an output of at most 0 stays so and gives raw bit 0; between -4 and 0 it strictly
decreases, down to -4 at least; below -5 it strictly increases, up to -5 at most; and 0, -4 and -5 are the fixed points.
So a positive output ends at 0 and a negative one at -4 or -5. 40_rx_discriminator.md R141 (marked derived). -/
def Obligations.SilenceDecaysToAFixedPoint : Prop :=
  ∀ s : State, s.Inv → s.S.DL = ⟨0, 0, 0, 0⟩ → s.S.D.iir_x1 = 0 →
    ∃ t, exec (.rxSample 0x00) s = .next t ∧ t.S.DL = ⟨0, 0, 0, 0⟩ ∧ t.S.D.iir_x1 = 0 ∧
      (0 < s.S.D.iir_y1.toInt → 0 ≤ t.S.D.iir_y1.toInt ∧ t.S.D.iir_y1.toInt < s.S.D.iir_y1.toInt) ∧
      (s.S.D.iir_y1.toInt ≤ 0 → t.S.D.iir_y1.toInt ≤ 0 ∧ t.S.D.sampled_bits.getLsbD 0 = false) ∧
      (-4 < s.S.D.iir_y1.toInt → s.S.D.iir_y1.toInt < 0 →
        -4 ≤ t.S.D.iir_y1.toInt ∧ t.S.D.iir_y1.toInt < s.S.D.iir_y1.toInt) ∧
      (s.S.D.iir_y1.toInt < -5 → s.S.D.iir_y1.toInt < t.S.D.iir_y1.toInt ∧ t.S.D.iir_y1.toInt ≤ -5) ∧
      (t.S.D.iir_y1 = s.S.D.iir_y1 ↔
        s.S.D.iir_y1.toInt = 0 ∨ s.S.D.iir_y1.toInt = -4 ∨ s.S.D.iir_y1.toInt = -5)

/-- Inverting the samples changes nothing but the delay line, which holds the inverted samples: the product is the
same. The value -128 has no inverse in an `s8`. 70_reset_and_hazards.md R316 (marked derived). -/
def Obligations.InvertedSamplesAreIndistinguishable : Prop :=
  ∀ (arg : Byte) (s t : State), arg ≠ 0x80 → s.S.DL.c3 ≠ 0x80 → exec (.rxSample arg) s = .next t →
    exec (.rxSample (-arg))
        { s with S := { s.S with DL := ⟨-s.S.DL.c0, -s.S.DL.c1, -s.S.DL.c2, -s.S.DL.c3⟩ } } =
      .next { t with S := { t.S with DL := ⟨-t.S.DL.c0, -t.S.DL.c1, -t.S.DL.c2, -t.S.DL.c3⟩ } }

/-! ## RX_SAMPLE: the bit synchronizer and the NRZI decoder -/

/-- The phase. The new decision is an edge when it differs from the last; an edge adds 1 below phase 32 and subtracts 1
from there on; every sample adds 8; the register keeps the sum modulo 64. 41_rx_bitsync.md R152, R153, R154, R155 (D8,
D9). -/
def Obligations.PhaseMovesTowardTheThreshold : Prop :=
  ∀ (b : Bool) (D : DemodState),
    (bitSync b D).2.curr_phase.toNat =
      ((if b = D.sampled_bits.getLsbD 0 then D.curr_phase.toNat
        else if D.curr_phase.toNat < 32 then D.curr_phase.toNat + 1 else D.curr_phase.toNat - 1) + 8) % 64

/-- Where the advanced phase reaches 64, the newest raw bit is shifted into `found_bits` and the deframer runs on the
NRZI-decoded bit; elsewhere `found_bits`, the HdlcRxState and the RX FIFO are as before. 41_rx_bitsync.md R155, R156. -/
def Obligations.WrapRunsTheDeframer : Prop :=
  ∀ (arg : Byte) (s t : State), exec (.rxSample arg) s = .next t →
    let adv := advancedPhase s.S.D t.S.D.sampled_bits
    if 64 ≤ adv then
      t.S.D.curr_phase.toNat = adv % 64 ∧
      t.S.D.found_bits.toNat =
        (2 * s.S.D.found_bits.toNat + (if t.S.D.sampled_bits.getLsbD 0 then 1 else 0)) % 256 ∧
      (t.S.H, t.S.RXF) = hdlcRx s.params.rxFifoCap (nrziDecode t.S.D.found_bits) s.S.H s.S.RXF
    else
      t.S.D.curr_phase.toNat = adv ∧ t.S.D.found_bits = s.S.D.found_bits ∧ t.S.H = s.S.H ∧ t.S.RXF = s.S.RXF

/-- The decoded bit is 1 exactly when the two newest synchronized raw bits are equal. 42_rx_deframer.md R171. -/
def Obligations.NrziComparesTheTwoNewestBits : Prop :=
  ∀ found : Byte, nrziDecode found = true ↔ found.getLsbD 0 = found.getLsbD 1

/-- For every sequence of raw decisions the synchronizer emits its next bit 7, 8 or 9 samples after the last, 8 or 9
after reset, and exactly 8 where there is no edge. 41_rx_bitsync.md R157 (marked derived). -/
def Obligations.EmissionsComeSevenToNineSamplesApart : Prop :=
  (∀ (b : Bool) (D : DemodState), (bitSync b D).1 ≠ none → (bitSync b D).2.curr_phase.toNat < 8) ∧
  (∀ (D : DemodState) (bs : List Bool), D.curr_phase.toNat < 8 → 9 ≤ bs.length →
    ∃ n, samplesToEmission bs D = some n ∧ 7 ≤ n ∧ n ≤ 9) ∧
  (∀ (p : Params) (bs : List Bool), 9 ≤ bs.length →
    ∃ n, samplesToEmission bs (Block.reset p).D = some n ∧ 8 ≤ n ∧ n ≤ 9) ∧
  (∀ D : DemodState, D.curr_phase.toNat < 8 →
    samplesToEmission (List.replicate 8 (D.sampled_bits.getLsbD 0)) D = some 8)

/-- Exchanging the roles of the two tones: with every raw decision inverted, and the two registers of raw decisions
inverted to match, the synchronizer emits the same decoded bits at the same samples. 70_reset_and_hazards.md R316
(marked derived), 30_encoding.md R108. -/
def Obligations.InvertedDecisionsDecodeTheSame : Prop :=
  ∀ (b : Bool) (D : DemodState),
    bitSync (!b) { D with sampled_bits := ~~~D.sampled_bits, found_bits := ~~~D.found_bits } =
      ((bitSync b D).1,
        { (bitSync b D).2 with
          sampled_bits := ~~~(bitSync b D).2.sampled_bits, found_bits := ~~~(bitSync b D).2.found_bits })

/-! ## RX_SAMPLE: the deframer -/

/-- The window takes every bit at bit 0 and loses the old bit 7, in both states of the deframer, whatever test then
succeeds. 42_rx_deframer.md R173. -/
def Obligations.WindowTakesEveryBit : Prop :=
  ∀ (cap : Nat) (bit : Bool) (H : HdlcRxState) (f : List Byte),
    (hdlcRx cap bit H f).1.demod_bits.toNat = (2 * H.demod_bits.toNat + (if bit then 1 else 0)) % 256

/-- A window of 0x7E, in either state: with room the marker is pushed and the deframer is IN_FRAME, without room
nothing is pushed and it is HUNTING; the byte being assembled is discarded. 42_rx_deframer.md R174 (D12, C5). -/
def Obligations.FlagRestartsTheFrame : Prop :=
  ∀ (cap : Nat) (bit : Bool) (H : HdlcRxState) (f : List Byte), shiftIn H.demod_bits bit = 0x7E →
    hdlcRx cap bit H f =
      if f.length = cap then ({ demod_bits := 0x7E, in_sync := false, current_byte := 0x00, bit_index := 0 }, f)
      else ({ demod_bits := 0x7E, in_sync := true, current_byte := 0x00, bit_index := 0 }, f ++ [0x7E])

/-- Seven or more 1 bits in a row, in either state: the deframer is HUNTING, the partial byte is discarded, nothing is
pushed. 42_rx_deframer.md R175 (D10). -/
def Obligations.AbortDiscardsThePartialByte : Prop :=
  ∀ (cap : Nat) (bit : Bool) (H : HdlcRxState) (f : List Byte),
    (∀ k, k < 7 → (shiftIn H.demod_bits bit).getLsbD k = true) →
    hdlcRx cap bit H f =
      ({ demod_bits := shiftIn H.demod_bits bit, in_sync := false, current_byte := 0x00, bit_index := 0 }, f)

/-- HUNTING: a bit that completes neither a flag nor an abort changes nothing but the window, and only a flag leaves
HUNTING. 42_rx_deframer.md R176. -/
def Obligations.HuntingIgnoresAllButFlags : Prop :=
  ∀ (cap : Nat) (bit : Bool) (H : HdlcRxState) (f : List Byte), H.in_sync = false →
    (shiftIn H.demod_bits bit ≠ 0x7E → shiftIn H.demod_bits bit &&& 0x7F ≠ 0x7F →
      hdlcRx cap bit H f = ({ H with demod_bits := shiftIn H.demod_bits bit }, f)) ∧
    ((hdlcRx cap bit H f).1.in_sync = true → shiftIn H.demod_bits bit = 0x7E)

/-- IN_FRAME, a 0 after exactly five 1 bits (the window is no flag and its low six bits are `0b111110`) is dropped:
only the window changes. 42_rx_deframer.md R177. -/
def Obligations.StuffedZeroIsDropped : Prop :=
  ∀ (cap : Nat) (bit : Bool) (H : HdlcRxState) (f : List Byte), H.in_sync = true →
    shiftIn H.demod_bits bit ≠ 0x7E → shiftIn H.demod_bits bit &&& 0x3F = 0b111110 →
    hdlcRx cap bit H f = ({ H with demod_bits := shiftIn H.demod_bits bit }, f)

/-- A data bit enters the byte at the top; the eighth completes it and pushes it, with the four outcomes for a special
byte and the two for an ordinary one. 42_rx_deframer.md R178, R179 (D11, D13, D14, C2). -/
def Obligations.DataBitIsAssembledAndTheByteIsPushed : Prop :=
  ∀ (cap : Nat) (bit : Bool) (H : HdlcRxState) (f : List Byte), H.in_sync = true →
    shiftIn H.demod_bits bit ≠ 0x7E → shiftIn H.demod_bits bit &&& 0x7F ≠ 0x7F →
    shiftIn H.demod_bits bit &&& 0x3F ≠ 0x3E →
    let c := H.current_byte >>> 1 ||| (if bit then 0x80 else 0x00)
    let w := shiftIn H.demod_bits bit
    (H.bit_index ≠ 7 →
      hdlcRx cap bit H f = ({ H with demod_bits := w, current_byte := c, bit_index := H.bit_index + 1 }, f)) ∧
    (H.bit_index = 7 → ¬ (c = 0x7E ∨ c = 0x7F ∨ c = 0x1B) →
      (f.length < cap → hdlcRx cap bit H f = (⟨w, true, 0x00, 0⟩, f ++ [c])) ∧
      (f.length = cap → hdlcRx cap bit H f = (⟨w, false, 0x00, 0⟩, f))) ∧
    (H.bit_index = 7 → (c = 0x7E ∨ c = 0x7F ∨ c = 0x1B) →
      (f.length + 2 ≤ cap → hdlcRx cap bit H f = (⟨w, true, 0x00, 0⟩, f ++ [0x1B, c])) ∧
      (f.length + 1 = cap → hdlcRx cap bit H f = (⟨w, false, 0x00, 0⟩, f ++ [0x1B])) ∧
      (f.length = cap → hdlcRx cap bit H f = (⟨w, false, 0x00, 0⟩, f)))

/-- Eight bits in a row, none of which completes a flag, an abort or a stuffing pattern, give the byte whose bit `k` is
the `k`-th of them, and it is pushed as a completed byte. 42_rx_deframer.md R178, 30_encoding.md R110, 00_scope.md
R17. -/
def Obligations.EightBitsMakeAByteLsbFirst : Prop :=
  ∀ (cap : Nat) (H : HdlcRxState) (f : List Byte) (bits : List Bool),
    H.in_sync = true → H.bit_index = 0 → bits.length = 8 →
    (∀ k, k < 8 → isFlag ((bits.take (k + 1)).foldl shiftIn H.demod_bits) = false ∧
      isAbort ((bits.take (k + 1)).foldl shiftIn H.demod_bits) = false ∧
      isStuffed ((bits.take (k + 1)).foldl shiftIn H.demod_bits) = false) →
    ∃ c : Byte, (∀ k, k < 8 → c.getLsbD k = bits.getD k false) ∧
      bits.foldl (fun r b => hdlcRx cap b r.1 r.2) (H, f) =
        (⟨bits.foldl shiftIn H.demod_bits, (pushByte cap c true f).1, 0x00, 0⟩, (pushByte cap c true f).2)

/-! ## TX_TICK -/

/-- A tick while the modulator is idle changes no state, takes nothing from the TX FIFO, and answers the idle sample
with `ok = 0`. 43_tx_framer.md R201 (D20). -/
def Obligations.IdleTickChangesNothing : Prop :=
  ∀ s : State, s.S.M.sending = false →
    exec .txTick s = .next { s with resp := some ⟨false, s.params.dacIdleSample⟩ }

/-- A tick takes a byte from the TX FIFO only at the start of a bit slot, when no bit of the current byte remains; where
the FIFO is then empty the modulator goes idle, nothing else changes, and the tick answers the idle sample with
`ok = 0`. 43_tx_framer.md R202. -/
def Obligations.UnderrunStopsTheModulator : Prop :=
  (∀ s t : State, exec .txTick s = .next t → t.S.TXF ≠ s.S.TXF →
    s.S.M.sending = true ∧ s.S.M.sample_countdown = 0 ∧ s.S.M.bit_mask = 0x00) ∧
  (∀ s : State, s.S.M.sending = true → s.S.M.sample_countdown = 0 → s.S.M.bit_mask = 0x00 → s.S.TXF = [] →
    exec .txTick s = .next { s with
      S := { s.S with M := { s.S.M with sending := false } }, resp := some ⟨false, s.params.dacIdleSample⟩ })

/-- The fetch. A byte that is no escape leaves the FIFO and is sent, with stuffing enabled unless it is 0x7E or 0x7F; an
escape and the byte after it leave the FIFO and that byte is sent with stuffing enabled; an escape with nothing after it
is lost and the modulator goes idle. 43_tx_framer.md R203, R204, R206 (D21, D22, D34, C1). -/
def Obligations.FetchUnescapes : Prop :=
  ∀ (s : State) (b : Byte) (rest : List Byte),
    s.S.M.sending = true → s.S.M.sample_countdown = 0 → s.S.M.bit_mask = 0x00 → s.S.TXF = b :: rest →
    ∃ t, exec .txTick s = .next t ∧ t.S.DL = s.S.DL ∧ t.S.D = s.S.D ∧ t.S.H = s.S.H ∧ t.S.RXF = s.S.RXF ∧
      (b ≠ 0x1B → t.S.TXF = rest ∧ t.S.M.current_byte = b ∧
        t.S.M.bit_stuff_enabled = (b != 0x7E && b != 0x7F) ∧ t.S.M.sending = true) ∧
      (∀ c rest', b = 0x1B → rest = c :: rest' → t.S.TXF = rest' ∧ t.S.M.current_byte = c ∧
        t.S.M.bit_stuff_enabled = true ∧ t.S.M.sending = true) ∧
      (b = 0x1B → rest = [] → t.S.TXF = [] ∧ t.resp = some ⟨false, s.params.dacIdleSample⟩ ∧
        t.S.M = { s.S.M with current_byte := 0x1B, bit_stuff_enabled := true, sending := false })

/-- An unescaped 0x7E or 0x7F disables stuffing and any other unescaped byte but the escape enables it, with the mask at
bit 0; and with stuffing disabled every slot carries a data bit: the mask advances, the byte and the flag stay.
43_tx_framer.md R205. -/
def Obligations.ControlBytesAreSentUnstuffed : Prop :=
  (∀ (M : ModState) (b : Byte) (f : List Byte), b = 0x7E ∨ b = 0x7F →
    fetch M (b :: f) = (true, { M with current_byte := b, bit_stuff_enabled := false, bit_mask := 0x01 }, f)) ∧
  (∀ (M : ModState) (b : Byte) (f : List Byte), b ≠ 0x7E → b ≠ 0x7F → b ≠ 0x1B →
    fetch M (b :: f) = (true, { M with current_byte := b, bit_stuff_enabled := true, bit_mask := 0x01 }, f)) ∧
  (∀ (p : Params) (M : ModState), M.bit_stuff_enabled = false →
    (M.sendBit p).bit_mask = M.bit_mask <<< 1 ∧ (M.sendBit p).current_byte = M.current_byte ∧
    (M.sendBit p).bit_stuff_enabled = false)

/-- A slot with stuffing enabled and a counter of at least 5, after the fetch if there was one, carries a stuffed 0: the
counter is cleared, the tone switched, the mask and the byte kept. 43_tx_framer.md R207. -/
def Obligations.StuffedSlotSendsAZero : Prop :=
  ∀ (s : State) (M : ModState) (f : List Byte),
    s.S.M.sending = true → s.S.M.sample_countdown = 0 → ready s.S.M s.S.TXF = (true, M, f) →
    M.bit_stuff_enabled = true → 5 ≤ M.consecutive_ones.toNat →
    let tone := if M.phase_inc = s.params.markInc then s.params.spaceInc else s.params.markInc
    ∃ answer, exec .txTick s = .next { s with
      S := { s.S with TXF := f, M := { M with
        consecutive_ones := 0, phase_inc := tone, phase_acc := M.phase_acc + tone,
        sample_countdown := s.params.spbTx - 1 } },
      resp := some answer }

/-- Any other slot carries the data bit the mask selects: a 1 keeps the tone and adds one to the counter, a 0 switches
the tone and clears it; then the mask moves left, to 0x00 after the eighth bit. 43_tx_framer.md R208. -/
def Obligations.DataSlotSendsTheMaskedBit : Prop :=
  ∀ (s : State) (M : ModState) (f : List Byte),
    s.S.M.sending = true → s.S.M.sample_countdown = 0 → ready s.S.M s.S.TXF = (true, M, f) →
    ¬ (M.bit_stuff_enabled = true ∧ 5 ≤ M.consecutive_ones.toNat) →
    let one := M.current_byte &&& M.bit_mask ≠ 0
    let tone := if one then M.phase_inc
      else if M.phase_inc = s.params.markInc then s.params.spaceInc else s.params.markInc
    ∃ answer, exec .txTick s = .next { s with
      S := { s.S with TXF := f, M := { M with
        consecutive_ones := if one then M.consecutive_ones + 1 else 0, phase_inc := tone,
        bit_mask := M.bit_mask <<< 1, phase_acc := M.phase_acc + tone,
        sample_countdown := s.params.spbTx - 1 } },
      resp := some answer }

/-- `SwitchTone` turns MARK into SPACE and anything else into MARK and changes only the increment. 43_tx_framer.md
R209. -/
def Obligations.SwitchToneExchangesTheTones : Prop :=
  ∀ (p : Params) (M : ModState),
    (M.phase_inc = p.markInc → M.switchTone p = { M with phase_inc := p.spaceInc }) ∧
    (M.phase_inc ≠ p.markInc → M.switchTone p = { M with phase_inc := p.markInc })

/-- `TX_TICK` completes in every state. If the modulator is active after it, the phase has advanced by the increment in
force after it, modulo 512; if not, the phase is as before. 44_tx_dds.md R230. -/
def Obligations.ActiveTickAdvancesThePhase : Prop :=
  ∀ s : State, ∃ t, exec .txTick s = .next t ∧
    (t.S.M.sending = true →
      t.S.M.phase_acc.toNat = (s.S.M.phase_acc.toNat + t.S.M.phase_inc.toNat) % 512) ∧
    (t.S.M.sending = false → t.S.M.phase_acc = s.S.M.phase_acc)

/-- A tick that leaves the modulator active answers `ok = 1` and the sine of the new phase; any other answers `ok = 0`
and the idle sample. 44_tx_dds.md R231 (D17), 43_tx_framer.md R200, R201 (D20). -/
def Obligations.TickAnswersTheSineOrTheIdleSample : Prop :=
  ∀ s : State, ∃ t, exec .txTick s = .next t ∧
    (t.S.M.sending = true → t.resp = some ⟨true, sinSample t.S.M.phase_acc⟩) ∧
    (t.S.M.sending = false → t.resp = some ⟨false, s.params.dacIdleSample⟩)

/-- The countdown is reloaded to `SPB_TX` at the start of a slot and lowered by one at the end of every active tick,
never below 0. 43_tx_framer.md R210, R211. The width of its register is the least that holds `SPB_TX`, 4 at the default,
and a tick keeps it within that width: 10_state.md R44 (the spec's own decision D31); that the register is a natural
number with `Params.countdownWidth` beside it is the model's choice (log 11). -/
def Obligations.CountdownReloadsAndFalls : Prop :=
  (∀ s t : State, s.params.valid = true → exec .txTick s = .next t → t.S.M.sending = true →
    t.S.M.sample_countdown + 1 =
      if s.S.M.sample_countdown = 0 then s.params.spbTx else s.S.M.sample_countdown) ∧
  (∀ p : Params, p.valid = true →
    p.spbTx < 2 ^ p.countdownWidth ∧ ∀ w, p.spbTx < 2 ^ w → p.countdownWidth ≤ w) ∧
  Params.default.countdownWidth = 4 ∧
  (∀ s t : State, exec .txTick s = .next t → s.S.M.sample_countdown < 2 ^ s.params.countdownWidth →
    t.S.M.sample_countdown < 2 ^ t.params.countdownWidth)

/-- Inside a slot: `k` ticks, `k` at most the countdown, all answer a sample, advance the phase by `k` increments and
lower the countdown by `k`; the tone and everything else is as before. 43_tx_framer.md R210, R211, 44_tx_dds.md R230,
R236. -/
def Obligations.SlotHoldsItsTone : Prop :=
  ∀ (k : Nat) (s : State), s.S.M.sending = true → k ≤ s.S.M.sample_countdown →
    ∃ es, run (ticksEvents k) s = some es ∧
      (∀ e ∈ es, ∃ d, e.after.resp = some ⟨true, d⟩) ∧
      (finish s es).S = { s.S with M := { s.S.M with
        phase_acc := s.S.M.phase_acc + BitVec.ofNat 9 (k * s.S.M.phase_inc.toNat),
        sample_countdown := s.S.M.sample_countdown - k } }

/-- Of all operations but `INIT`, only `TX_TICK` turns the modulator idle, and only at a fetch that finds the TX FIFO
empty, or holding nothing but one escape; it leaves the FIFO empty. So the modulator cannot go idle while a byte pushed
before a `TX_START` is still queued. 70_reset_and_hazards.md R306 (marked derived), 10_state.md R54. -/
def Obligations.ModulatorStopsOnlyWithAnEmptyFifo : Prop :=
  ∀ (i : Instr) (s t : State), i ≠ .init → exec i s = .next t → s.S.M.sending = true → t.S.M.sending = false →
    i = .txTick ∧
    s.S.M.sample_countdown = 0 ∧ s.S.M.bit_mask = 0x00 ∧ (s.S.TXF = [] ∨ s.S.TXF = [0x1B]) ∧ t.S.TXF = []

/-- The second half wave mirrors the first in the amplitude and the second quarter the first in the index; the quarter
table is nondecreasing from 128 to 255. 44_tx_dds.md R232, R233 (D17). -/
def Obligations.SineWaveSymmetry : Prop :=
  (∀ idx : Phase, (sinSample idx).toNat + (sinSample (idx + 256)).toNat = 255) ∧
  (∀ idx : Phase, idx.toNat ≤ 255 → sinSample idx = sinSample (255 - idx)) ∧
  (∀ i j : Fin 128, i ≤ j → (sinRom i).toNat ≤ (sinRom j).toNat) ∧ sinRom 0 = 128 ∧ sinRom 127 = 255

/-- `div_round` rounds to the nearest, a half up; so each tone increment is within half a table step of
`512 * tone / DAC_SAMPLE_RATE`. 00_scope.md R9 (D18), 44_tx_dds.md R234, R235 (marked derived). -/
def Obligations.ToneIncrementsAreWithinHalfAStep : Prop :=
  (∀ a b : Nat, 0 < b → 2 * (divRound a b * b) ≤ 2 * a + b ∧ 2 * a < 2 * (divRound a b * b) + b) ∧
  (∀ p : Params, p.valid = true →
    2 * (p.markInc.toNat * p.dacSampleRate) ≤ 2 * (512 * 1200) + p.dacSampleRate ∧
    2 * (512 * 1200) < 2 * (p.markInc.toNat * p.dacSampleRate) + p.dacSampleRate ∧
    2 * (p.spaceInc.toNat * p.dacSampleRate) ≤ 2 * (512 * 2200) + p.dacSampleRate ∧
    2 * (512 * 2200) < 2 * (p.spaceInc.toNat * p.dacSampleRate) + p.dacSampleRate)

/-! ## The host's operations -/

/-- `TX_PUSH` appends where there is room and answers `ok = 1`; on a full TX FIFO it changes nothing and answers
`ok = 0`. Everything else is as before. 45_host_fifo_ops.md R250, R251, 20_memory.md R74, R75 (D23). -/
def Obligations.TxPushAppendsOrRejects : Prop :=
  ∀ (s : State) (b : Byte),
    (s.S.TXF.length ≠ s.params.txFifoCap →
      exec (.txPush b) s = .next { s with
        S := { s.S with TXF := s.S.TXF ++ [b] }, resp := some ⟨true, 0x00⟩ }) ∧
    (s.S.TXF.length = s.params.txFifoCap →
      exec (.txPush b) s = .next { s with resp := some ⟨false, 0x00⟩ })

/-- `RX_POP` removes and answers the oldest byte with `ok = 1`; on an empty RX FIFO it changes nothing and answers
`ok = 0`, `data = 0x00`. Everything else is as before. 45_host_fifo_ops.md R252, R253, 20_memory.md R76 (D23). -/
def Obligations.RxPopRemovesTheOldest : Prop :=
  ∀ s : State,
    (∀ b rest, s.S.RXF = b :: rest →
      exec .rxPop s = .next { s with S := { s.S with RXF := rest }, resp := some ⟨true, b⟩ }) ∧
    (s.S.RXF = [] → exec .rxPop s = .next { s with resp := some ⟨false, 0x00⟩ })

/-- `TX_START` sets MARK, phase 0, counter 0 and `sending` in an idle modulator and changes nothing in an active one; a
second one changes nothing. 45_host_fifo_ops.md R254, R255 (D19). -/
def Obligations.TxStartStartsAnIdleModulator : Prop :=
  ∀ s : State,
    (s.S.M.sending = false →
      exec .txStart s = .next { s with
        S := { s.S with M := { s.S.M with
          phase_inc := s.params.markInc, phase_acc := 0, consecutive_ones := 0, sending := true } },
        resp := some ⟨true, 0x00⟩ }) ∧
    (s.S.M.sending = true → exec .txStart s = .next { s with resp := some ⟨true, 0x00⟩ }) ∧
    (∀ t u, exec .txStart s = .next t → exec .txStart t = .next u → u = t)

/-- `RD_STATUS` answers `ok = 1` and the five bits of `STATUS`, the rest 0, and changes nothing. 10_state.md R55,
45_host_fifo_ops.md R256 (D24). -/
def Obligations.StatusReportsTheFiveFacts : Prop :=
  ∀ s : State, ∃ st : Byte, exec .rdStatus s = .next { s with resp := some ⟨true, st⟩ } ∧
    (st.getLsbD 0 = true ↔ s.S.RXF ≠ []) ∧
    (st.getLsbD 1 = true ↔ s.S.RXF.length = s.params.rxFifoCap) ∧
    (st.getLsbD 2 = true ↔ s.S.TXF.length ≠ s.params.txFifoCap) ∧
    (st.getLsbD 3 = true ↔ s.S.TXF = []) ∧
    (st.getLsbD 4 = true ↔ s.S.M.sending = true) ∧
    st.getLsbD 5 = false ∧ st.getLsbD 6 = false ∧ st.getLsbD 7 = false

/-- `INIT` gives the reset state of the instance and answers `ok = 1`; `STATUS` is then 0x0C in every valid instance.
45_host_fifo_ops.md R258, 70_reset_and_hazards.md R300, R301 (D25). -/
def Obligations.InitGivesTheResetState : Prop :=
  ∀ s : State,
    exec .init s = .next { s with S := (State.resetWith s.params).S, resp := some ⟨true, 0x00⟩ } ∧
    (s.params.valid = true → statusWord s.params (State.resetWith s.params).S = 0x0C)

/-- `NOP` changes nothing and answers `ok = 1`, `data = 0x00`. 45_host_fifo_ops.md R259 (D1). -/
def Obligations.NopChangesNothing : Prop :=
  ∀ s : State, exec .nop s = .next { s with resp := some ⟨true, 0x00⟩ }

/-- The reset state is the table of 10_state.md R59, field by field (D25). The parameters of `State.reset` are the
defaults of 00_scope.md R7 and no event has arrived: the model's choice (log 1, log 3, log 4). -/
def Obligations.ResetStateIsTheTable : Prop :=
  (∀ p : Params, (State.resetWith p).S =
    { DL := ⟨0, 0, 0, 0⟩
      D := { iir_x0 := 0, iir_x1 := 0, iir_y0 := 0, iir_y1 := 0, sampled_bits := 0, found_bits := 0, curr_phase := 0 }
      H := { demod_bits := 0, in_sync := false, current_byte := 0, bit_index := 0 }
      M := { phase_acc := 0, phase_inc := p.markInc, sample_countdown := 0, current_byte := 0, bit_mask := 0,
             bit_stuff_enabled := true, consecutive_ones := 0, sending := false }
      RXF := []
      TXF := [] }) ∧
  State.reset.S.M.phase_inc = 64 ∧ State.reset.params = ⟨32, 32, 9600, 0x00⟩ ∧
  State.reset.inbox = [] ∧ State.reset.resp = none

/-- Without host action `STATUS` moves one way: `RX_SAMPLE` and `TX_TICK` keep `RXNE`, `RXFULL`, `TXNF` and `TXE` once
they read 1, and `SENDING` once it reads 0. 45_host_fifo_ops.md R256 (D24), 70_reset_and_hazards.md R317 (marked
derived). -/
def Obligations.StatusMovesOneWayWithoutTheHost : Prop :=
  ∀ (i : Instr) (s t : State), (i = .txTick ∨ ∃ a, i = .rxSample a) → s.Inv → exec i s = .next t →
    (∀ k, k < 4 → (statusWord s.params s.S).getLsbD k = true → (statusWord t.params t.S).getLsbD k = true) ∧
    ((statusWord s.params s.S).getLsbD 4 = false → (statusWord t.params t.S).getLsbD 4 = false)

/-! ## Agents and runs -/

/-- `RX_SAMPLE` and `TX_TICK` commute: the two orders give the same state of the block and the same responses.
20_memory.md R85 (marked derived). -/
def Obligations.RxSampleAndTxTickCommute : Prop :=
  ∀ (s : State) (arg : Byte), s.Inv →
    ∃ t t' u u', exec (.rxSample arg) s = .next t ∧ exec .txTick t = .next t' ∧
      exec .txTick s = .next u ∧ exec (.rxSample arg) u = .next u' ∧
      t'.S = u'.S ∧ t.resp = u'.resp ∧ t'.resp = u.resp ∧
      t'.params = u'.params ∧ t'.inbox = u'.inbox

/-- A host operation and an agent operation on one FIFO. `RX_POP` and `RX_SAMPLE` commute where the RX FIFO is neither
empty nor full and, for a sample that pushes two bytes, has two free entries; `TX_PUSH` and `TX_TICK` commute where the
TX FIFO is neither empty nor full and no lone escape is due for a fetch; with one lone escape due for a fetch they do
not, whatever byte is pushed. 20_memory.md R86 (marked derived; its last sentence overlooks the lone escape, log 16),
43_tx_framer.md R204 (D21). -/
def Obligations.HostAndAgentOnOneFifo : Prop :=
  (∀ (s : State) (arg : Byte), s.Inv → s.S.RXF ≠ [] → s.S.RXF.length < s.params.rxFifoCap →
    ((rxWanted arg s.S).length = 2 → s.S.RXF.length + 2 ≤ s.params.rxFifoCap) →
    ∃ t t' u u', exec .rxPop s = .next t ∧ exec (.rxSample arg) t = .next t' ∧
      exec (.rxSample arg) s = .next u ∧ exec .rxPop u = .next u' ∧
      t'.S = u'.S ∧ t.resp = u'.resp ∧ t'.resp = u.resp) ∧
  (∀ (s : State) (b : Byte), s.S.TXF ≠ [] → s.S.TXF.length < s.params.txFifoCap →
    ¬ (s.S.TXF = [0x1B] ∧ s.S.M.sending = true ∧ s.S.M.sample_countdown = 0 ∧ s.S.M.bit_mask = 0x00) →
    ∃ t t' u u', exec (.txPush b) s = .next t ∧ exec .txTick t = .next t' ∧
      exec .txTick s = .next u ∧ exec (.txPush b) u = .next u' ∧
      t'.S = u'.S ∧ t.resp = u'.resp ∧ t'.resp = u.resp) ∧
  (∀ (s : State) (b : Byte), s.S.M.sending = true → s.S.M.sample_countdown = 0 → s.S.M.bit_mask = 0x00 →
    s.S.TXF = [0x1B] → 2 ≤ s.params.txFifoCap →
    ∃ t t' u u', exec (.txPush b) s = .next t ∧ exec .txTick t = .next t' ∧
      exec .txTick s = .next u ∧ exec (.txPush b) u = .next u' ∧
      t'.S.M.sending = true ∧ t'.S.M.current_byte = b ∧ t'.S.TXF = [] ∧
      u'.S.M.sending = false ∧ u'.S.TXF = [b])

/-- HEADLINE. Along every run without `INIT`, each FIFO delivers in order and each byte once: what it held before and
what was put in is what was taken out and what it holds after, in that order. 20_memory.md R88 (marked derived), R75,
R76. -/
def Obligations.FifosDeliverInOrder : Prop :=
  ∀ (is : List Instr) (s : State) (es : List Event), .init ∉ is → run is s = some es →
    s.S.RXF ++ es.flatMap Event.rxPushed = es.flatMap Event.rxPopped ++ (finish s es).S.RXF ∧
    s.S.TXF ++ es.flatMap Event.txAccepted = es.flatMap Event.txFetched ++ (finish s es).S.TXF

/-- HEADLINE. Overflow resilience, of both FIFOs. Along every run without `RX_POP` and `INIT` the bytes stored in the RX
FIFO stay, in order; it never holds more than its capacity; and a full FIFO stays exactly as it is. The same of the TX
FIFO along every run without `TX_TICK` and `INIT`. 60_exceptions.md R284, 20_memory.md R75, 45_host_fifo_ops.md R251. -/
def Obligations.OverflowKeepsWhatIsStored : Prop :=
  (∀ (is : List Instr) (s : State) (es : List Event), .init ∉ is → .rxPop ∉ is → run is s = some es →
    s.S.RXF.length ≤ s.params.rxFifoCap →
    s.S.RXF <+: (finish s es).S.RXF ∧ (finish s es).S.RXF.length ≤ s.params.rxFifoCap ∧
    (s.S.RXF.length = s.params.rxFifoCap → (finish s es).S.RXF = s.S.RXF)) ∧
  (∀ (is : List Instr) (s : State) (es : List Event), .init ∉ is → .txTick ∉ is → run is s = some es →
    s.S.TXF.length ≤ s.params.txFifoCap →
    s.S.TXF <+: (finish s es).S.TXF ∧ (finish s es).S.TXF.length ≤ s.params.txFifoCap ∧
    (s.S.TXF.length = s.params.txFifoCap → (finish s es).S.TXF = s.S.TXF))

/-- HEADLINE. The line round trip: a payload written as one frame into a freshly started framer, its slots sent as tones
and received one raw bit per slot with either polarity, leaves the RX FIFO byte for byte as written, the deframer
IN_FRAME, and a conforming reader with the payload between two flags. So NRZI, bit stuffing and escaping are undone
exactly. 43_tx_framer.md R216 (marked derived), 45_host_fifo_ops.md R265, 30_encoding.md R116; the front end is left
out, as R216 does. -/
def Obligations.LineRoundTrip : Prop :=
  ∀ (p : Params) (payload : List Byte) (cap n : Nat) (M : ModState) (H : HdlcRxState) (found : Byte) (markIs : Bool),
    p.valid = true → M.bit_mask = 0x00 → H.in_sync = false → H.demod_bits = 0x00 →
    found.getLsbD 0 = markIs → (writeFrame payload).length ≤ cap → 10 * (writeFrame payload).length ≤ n →
    let tones := slotTones p n (M.start p) (writeFrame payload)
    let r := LineRx.takeAll cap ⟨found, H, []⟩ (tones.map (rawOfTone p markIs))
    r.RXF = writeFrame payload ∧ r.H.in_sync = true ∧
      readItems r.RXF = .flag :: (payload.map .data ++ [.flag])

/-- HEADLINE. The ring of `CAP + 1` cells realises the FIFO: emptiness, fullness, length, push and pop on the ring are
those of its sequence, and keep the ring well formed. 20_memory.md R72 to R77 (D15, C3). -/
def Obligations.RingRefinesTheFifo : Prop :=
  ∀ r : Ring, r.wf = true →
    r.empty = fifoEmpty r.contents ∧ r.full = fifoFull (r.size - 1) r.contents ∧
    r.len = fifoLen r.contents ∧
    (∀ b, r.full = false → (r.push b).wf = true ∧ (r.push b).contents = fifoPush r.contents b) ∧
    (r.empty = false → ∃ b, r.front = some b ∧ r.drop.wf = true ∧
      fifoPop r.contents = some (b, r.drop.contents))

/-- The host procedures `write` and `flush`. A `write` whose pushes are all accepted issues exactly the pseudo-operation
`WRITE`: each byte pushed and the modulator started after it. In either form of waiting, against the block with any
doings of the two agents in between, a `write` that has returned has had exactly its bytes accepted, each once and in
order, and returns their count, `len`. A `flush` called while the modulator is active issues nothing but `RD_STATUS`,
and when it has returned the modulator is idle and the TX FIFO is empty. 45_host_fifo_ops.md R263, R264, 30_encoding.md
R107 (D32), 20_memory.md R89. -/
def Obligations.WriteAndFlushDoWhatTheyPromise : Prop :=
  (∀ (bs : List Byte) (resps : List Response), 2 * bs.length ≤ resps.length → (∀ r ∈ resps, r.ok = true) →
    WriteProc.events resps (.begin .reissue bs) = writeEvents bs) ∧
  (∀ (form : WaitForm) (bs : List Byte) (turns : List Turn) (s : State) (w : WriteProc) (es : List Event) (n : Nat),
    (∀ turn ∈ turns, ∀ i ∈ turn.others, i = .txTick ∨ ∃ a, i = .rxSample a) →
    s.S.TXF.length ≤ s.params.txFifoCap → runWrite turns (.begin form bs) s = some (w, es) →
    w.bytesWritten = some n → n = bs.length ∧ es.flatMap Event.txAccepted = bs) ∧
  (∀ (turns : List Turn) (s : State) (es : List Event),
    (∀ turn ∈ turns, ∀ i ∈ turn.others, i = .txTick ∨ ∃ a, i = .rxSample a) →
    s.S.M.sending = true → runFlush turns .asking s = some (.ended, es) →
    (∀ e ∈ es, e.op = .rdStatus ∨ e.op = .txTick ∨ ∃ a, e.op = .rxSample a) ∧
    (finish s es).S.M.sending = false ∧ (finish s es).S.TXF = [])
end

