-- ==== Sys2Proof/Laws/Params.lean ====
section
/-! SUPPORT. What valid parameters give (00_scope.md R8). -/

namespace Sys2Proof.Machine

theorem valid_parts {p : Params} (h : p.valid = true) :
    (p.dacSampleRate % BIT_RATE = 0 ∧ 1 ≤ p.spbTx) ∧ p.markIncNat ≠ p.spaceIncNat ∧
    (0 < p.markIncNat ∧ p.markIncNat < SIN_LEN) ∧ (0 < p.spaceIncNat ∧ p.spaceIncNat < SIN_LEN) ∧
    2 ≤ p.rxFifoCap ∧ 2 ≤ p.txFifoCap := by
  simp only [Params.valid, Params.rateOk, Params.tonesDiffer, Params.markOk, Params.spaceOk, Params.rxCapOk,
    Params.txCapOk, Bool.and_eq_true, beq_iff_eq, bne_iff_ne, decide_eq_true_eq] at h
  obtain ⟨⟨⟨⟨⟨⟨-, hr⟩, hd⟩, hm⟩, hs⟩, hx⟩, ht⟩ := h
  exact ⟨hr, hd, hm, hs, hx, ht⟩

/-- The increment held in nine bits is the increment. -/
theorem markInc_toNat {p : Params} (h : p.valid = true) : p.markInc.toNat = p.markIncNat := by
  rw [Params.markInc, BitVec.toNat_ofNat]
  exact Nat.mod_eq_of_lt (valid_parts h).2.2.1.2

theorem spaceInc_toNat {p : Params} (h : p.valid = true) : p.spaceInc.toNat = p.spaceIncNat := by
  rw [Params.spaceInc, BitVec.toNat_ofNat]
  exact Nat.mod_eq_of_lt (valid_parts h).2.2.2.1.2

/-- `SPB_TX` fits the width of the countdown. -/
theorem spbTx_lt_width (p : Params) : p.spbTx < 2 ^ p.countdownWidth := Nat.lt_log2_self

/-- No narrower register holds `SPB_TX`. -/
theorem countdownWidth_le {p : Params} (h : 1 ≤ p.spbTx) {w : Nat} (hw : p.spbTx < 2 ^ w) : p.countdownWidth ≤ w :=
  (Nat.log2_lt (by omega)).mpr hw

@[simp] theorem countdownReg_spbTx (p : Params) : p.countdownReg p.spbTx = p.spbTx :=
  Nat.mod_eq_of_lt (spbTx_lt_width p)

/-- Invariant (I8) keeps the countdown within its width. -/
theorem countdown_fits {p : Params} {n : Nat} (h : n ≤ p.spbTx) : n < 2 ^ p.countdownWidth :=
  Nat.lt_of_le_of_lt h (spbTx_lt_width p)

/-- The width adds nothing to (I8): the invariants of 10_state.md R57 with the framer's give all of `State.Inv`. -/
theorem State.Inv.of_spec {s : State} (h : SpecInv s.params s.S) (hf : FramerInv s.S.M) : s.Inv :=
  ⟨h, hf, countdown_fits h.countdown⟩

/-- The two tones differ in nine bits too. -/
theorem markInc_ne_spaceInc {p : Params} (h : p.valid = true) : p.markInc ≠ p.spaceInc := by
  intro e
  have := congrArg BitVec.toNat e
  rw [markInc_toNat h, spaceInc_toNat h] at this
  exact (valid_parts h).2.1 this

end Sys2Proof.Machine
end

