-- ==== Sys2Proof/Laws/PerInstr.lean ====
section
/-! SUPPORT. Statements made for every operation, one lemma per constructor of `Instr`. -/

namespace Sys2Proof.Laws.TableMatch

/-- The operation is well formed, and its word has its opcode in `ev[11:8]`, its operand in `ev[7:0]`, and lies in a row
of spec/opcode_table.json with its mnemonic (30_encoding.md R100, R101). -/
def Statement (i : Instr) : Prop :=
  i.wf = true ∧ opOf (encode i) = opcode i ∧ argOf (encode i) = operand i ∧
    ∃ r ∈ opcodeTable, r.covers (encode i) = true ∧ r.mnemonic = i.mnemonic

theorem nop : Statement .nop := ⟨rfl, by decide, by decide, _, .head _, by decide, rfl⟩
theorem init : Statement .init := ⟨rfl, by decide, by decide, _, .tail _ (.head _), by decide, rfl⟩

theorem rxSample (arg : Byte) : Statement (.rxSample arg) := by
  have h : ∀ a : Byte, opOf (encode (.rxSample a)) = 0x2 ∧ argOf (encode (.rxSample a)) = a ∧
      TableRow.covers ⟨"RX_SAMPLE", 0x200, 0xF00⟩ (encode (.rxSample a)) = true := by decide +kernel
  exact ⟨rfl, (h arg).1, (h arg).2.1, _, .tail _ (.tail _ (.head _)), (h arg).2.2, rfl⟩

theorem txTick : Statement .txTick :=
  ⟨rfl, by decide, by decide, _, .tail _ (.tail _ (.tail _ (.head _))), by decide, rfl⟩

theorem txPush (b : Byte) : Statement (.txPush b) := by
  have h : ∀ a : Byte, opOf (encode (.txPush a)) = 0x4 ∧ argOf (encode (.txPush a)) = a ∧
      TableRow.covers ⟨"TX_PUSH", 0x400, 0xF00⟩ (encode (.txPush a)) = true := by decide +kernel
  exact ⟨rfl, (h b).1, (h b).2.1, _, .tail _ (.tail _ (.tail _ (.tail _ (.head _)))), (h b).2.2, rfl⟩

theorem txStart : Statement .txStart :=
  ⟨rfl, by decide, by decide, _, .tail _ (.tail _ (.tail _ (.tail _ (.tail _ (.head _))))), by decide, rfl⟩
theorem rxPop : Statement .rxPop :=
  ⟨rfl, by decide, by decide, _, .tail _ (.tail _ (.tail _ (.tail _ (.tail _ (.tail _ (.head _)))))), by decide, rfl⟩
theorem rdStatus : Statement .rdStatus :=
  ⟨rfl, by decide, by decide, _,
    .tail _ (.tail _ (.tail _ (.tail _ (.tail _ (.tail _ (.tail _ (.head _))))))), by decide, rfl⟩

end Sys2Proof.Laws.TableMatch
end

