-- ==== Sys2Proof/Laws/State.lean ====
section
/-! SUPPORT. One lemma for each field under each update of the state, so that no later proof unfolds a record update. -/

namespace Sys2Proof.Machine

variable (s : State) (B : Block)

@[simp] theorem Block.withRx_DL (dl : DelayLine) (d : DemodState) (h : HdlcRxState) (f : List Byte) : (B.withRx dl d h f).DL = dl := rfl
@[simp] theorem Block.withRx_D (dl : DelayLine) (d : DemodState) (h : HdlcRxState) (f : List Byte) : (B.withRx dl d h f).D = d := rfl
@[simp] theorem Block.withRx_H (dl : DelayLine) (d : DemodState) (h : HdlcRxState) (f : List Byte) : (B.withRx dl d h f).H = h := rfl
@[simp] theorem Block.withRx_M (dl : DelayLine) (d : DemodState) (h : HdlcRxState) (f : List Byte) : (B.withRx dl d h f).M = B.M := rfl
@[simp] theorem Block.withRx_RXF (dl : DelayLine) (d : DemodState) (h : HdlcRxState) (f : List Byte) : (B.withRx dl d h f).RXF = f := rfl
@[simp] theorem Block.withRx_TXF (dl : DelayLine) (d : DemodState) (h : HdlcRxState) (f : List Byte) : (B.withRx dl d h f).TXF = B.TXF := rfl

@[simp] theorem Block.withTx_DL (m : ModState) (f : List Byte) : (B.withTx m f).DL = B.DL := rfl
@[simp] theorem Block.withTx_D (m : ModState) (f : List Byte) : (B.withTx m f).D = B.D := rfl
@[simp] theorem Block.withTx_H (m : ModState) (f : List Byte) : (B.withTx m f).H = B.H := rfl
@[simp] theorem Block.withTx_M (m : ModState) (f : List Byte) : (B.withTx m f).M = m := rfl
@[simp] theorem Block.withTx_RXF (m : ModState) (f : List Byte) : (B.withTx m f).RXF = B.RXF := rfl
@[simp] theorem Block.withTx_TXF (m : ModState) (f : List Byte) : (B.withTx m f).TXF = f := rfl

@[simp] theorem Block.withM_DL (m : ModState) : (B.withM m).DL = B.DL := rfl
@[simp] theorem Block.withM_D (m : ModState) : (B.withM m).D = B.D := rfl
@[simp] theorem Block.withM_H (m : ModState) : (B.withM m).H = B.H := rfl
@[simp] theorem Block.withM_M (m : ModState) : (B.withM m).M = m := rfl
@[simp] theorem Block.withM_RXF (m : ModState) : (B.withM m).RXF = B.RXF := rfl
@[simp] theorem Block.withM_TXF (m : ModState) : (B.withM m).TXF = B.TXF := rfl

@[simp] theorem Block.withRXF_DL (f : List Byte) : (B.withRXF f).DL = B.DL := rfl
@[simp] theorem Block.withRXF_D (f : List Byte) : (B.withRXF f).D = B.D := rfl
@[simp] theorem Block.withRXF_H (f : List Byte) : (B.withRXF f).H = B.H := rfl
@[simp] theorem Block.withRXF_M (f : List Byte) : (B.withRXF f).M = B.M := rfl
@[simp] theorem Block.withRXF_RXF (f : List Byte) : (B.withRXF f).RXF = f := rfl
@[simp] theorem Block.withRXF_TXF (f : List Byte) : (B.withRXF f).TXF = B.TXF := rfl

@[simp] theorem Block.withTXF_DL (f : List Byte) : (B.withTXF f).DL = B.DL := rfl
@[simp] theorem Block.withTXF_D (f : List Byte) : (B.withTXF f).D = B.D := rfl
@[simp] theorem Block.withTXF_H (f : List Byte) : (B.withTXF f).H = B.H := rfl
@[simp] theorem Block.withTXF_M (f : List Byte) : (B.withTXF f).M = B.M := rfl
@[simp] theorem Block.withTXF_RXF (f : List Byte) : (B.withTXF f).RXF = B.RXF := rfl
@[simp] theorem Block.withTXF_TXF (f : List Byte) : (B.withTXF f).TXF = f := rfl

@[simp] theorem State.answer_params (B : Block) (r : Response) : (s.answer B r).params = s.params := rfl
@[simp] theorem State.answer_S (B : Block) (r : Response) : (s.answer B r).S = B := rfl
@[simp] theorem State.answer_inbox (B : Block) (r : Response) : (s.answer B r).inbox = s.inbox := rfl
@[simp] theorem State.answer_resp (B : Block) (r : Response) : (s.answer B r).resp = some r := rfl

@[simp] theorem State.taken_params (rest : List Arrival) : (s.taken rest).params = s.params := rfl
@[simp] theorem State.taken_S (rest : List Arrival) : (s.taken rest).S = s.S := rfl
@[simp] theorem State.taken_inbox (rest : List Arrival) : (s.taken rest).inbox = rest := rfl
@[simp] theorem State.taken_resp (rest : List Arrival) : (s.taken rest).resp = s.resp := rfl

@[simp] theorem State.quiet_params : (s.quiet).params = s.params := rfl
@[simp] theorem State.quiet_S : (s.quiet).S = s.S := rfl
@[simp] theorem State.quiet_inbox : (s.quiet).inbox = s.inbox := rfl
@[simp] theorem State.quiet_resp : (s.quiet).resp = none := rfl

@[simp] theorem DemodState.shiftTaps_iir_x0 (D : DemodState) (x y : Tap) : (D.shiftTaps x y).iir_x0 = D.iir_x1 := rfl
@[simp] theorem DemodState.shiftTaps_iir_x1 (D : DemodState) (x y : Tap) : (D.shiftTaps x y).iir_x1 = x := rfl
@[simp] theorem DemodState.shiftTaps_iir_y0 (D : DemodState) (x y : Tap) : (D.shiftTaps x y).iir_y0 = D.iir_y1 := rfl
@[simp] theorem DemodState.shiftTaps_iir_y1 (D : DemodState) (x y : Tap) : (D.shiftTaps x y).iir_y1 = y := rfl
@[simp] theorem DemodState.shiftTaps_sampled_bits (D : DemodState) (x y : Tap) : (D.shiftTaps x y).sampled_bits = D.sampled_bits := rfl
@[simp] theorem DemodState.shiftTaps_found_bits (D : DemodState) (x y : Tap) : (D.shiftTaps x y).found_bits = D.found_bits := rfl
@[simp] theorem DemodState.shiftTaps_curr_phase (D : DemodState) (x y : Tap) : (D.shiftTaps x y).curr_phase = D.curr_phase := rfl

@[simp] theorem HdlcRxState.restart_demod_bits (H : HdlcRxState) (sync : Bool) : (H.restart sync).demod_bits = H.demod_bits := rfl
@[simp] theorem HdlcRxState.restart_in_sync (H : HdlcRxState) (sync : Bool) : (H.restart sync).in_sync = sync := rfl
@[simp] theorem HdlcRxState.restart_current_byte (H : HdlcRxState) (sync : Bool) : (H.restart sync).current_byte = 0 := rfl
@[simp] theorem HdlcRxState.restart_bit_index (H : HdlcRxState) (sync : Bool) : (H.restart sync).bit_index = 0 := rfl

@[simp] theorem ModState.switchTone_phase_acc (p : Params) (M : ModState) : (M.switchTone p).phase_acc = M.phase_acc := rfl
@[simp] theorem ModState.switchTone_sample_countdown (p : Params) (M : ModState) : (M.switchTone p).sample_countdown = M.sample_countdown := rfl
@[simp] theorem ModState.switchTone_current_byte (p : Params) (M : ModState) : (M.switchTone p).current_byte = M.current_byte := rfl
@[simp] theorem ModState.switchTone_bit_mask (p : Params) (M : ModState) : (M.switchTone p).bit_mask = M.bit_mask := rfl
@[simp] theorem ModState.switchTone_bit_stuff_enabled (p : Params) (M : ModState) : (M.switchTone p).bit_stuff_enabled = M.bit_stuff_enabled := rfl
@[simp] theorem ModState.switchTone_consecutive_ones (p : Params) (M : ModState) : (M.switchTone p).consecutive_ones = M.consecutive_ones := rfl
@[simp] theorem ModState.switchTone_sending (p : Params) (M : ModState) : (M.switchTone p).sending = M.sending := rfl

@[simp] theorem ModState.load_phase_acc (M : ModState) (c : Byte) (st : Bool) : (M.load c st).phase_acc = M.phase_acc := rfl
@[simp] theorem ModState.load_phase_inc (M : ModState) (c : Byte) (st : Bool) : (M.load c st).phase_inc = M.phase_inc := rfl
@[simp] theorem ModState.load_sample_countdown (M : ModState) (c : Byte) (st : Bool) : (M.load c st).sample_countdown = M.sample_countdown := rfl
@[simp] theorem ModState.load_current_byte (M : ModState) (c : Byte) (st : Bool) : (M.load c st).current_byte = c := rfl
@[simp] theorem ModState.load_bit_mask (M : ModState) (c : Byte) (st : Bool) : (M.load c st).bit_mask = 1 := rfl
@[simp] theorem ModState.load_bit_stuff_enabled (M : ModState) (c : Byte) (st : Bool) : (M.load c st).bit_stuff_enabled = st := rfl
@[simp] theorem ModState.load_consecutive_ones (M : ModState) (c : Byte) (st : Bool) : (M.load c st).consecutive_ones = M.consecutive_ones := rfl
@[simp] theorem ModState.load_sending (M : ModState) (c : Byte) (st : Bool) : (M.load c st).sending = M.sending := rfl

@[simp] theorem ModState.start_phase_acc (p : Params) (M : ModState) : (M.start p).phase_acc = 0 := rfl
@[simp] theorem ModState.start_phase_inc (p : Params) (M : ModState) : (M.start p).phase_inc = p.markInc := rfl
@[simp] theorem ModState.start_sample_countdown (p : Params) (M : ModState) : (M.start p).sample_countdown = M.sample_countdown := rfl
@[simp] theorem ModState.start_current_byte (p : Params) (M : ModState) : (M.start p).current_byte = M.current_byte := rfl
@[simp] theorem ModState.start_bit_mask (p : Params) (M : ModState) : (M.start p).bit_mask = M.bit_mask := rfl
@[simp] theorem ModState.start_bit_stuff_enabled (p : Params) (M : ModState) : (M.start p).bit_stuff_enabled = M.bit_stuff_enabled := rfl
@[simp] theorem ModState.start_consecutive_ones (p : Params) (M : ModState) : (M.start p).consecutive_ones = 0 := rfl
@[simp] theorem ModState.start_sending (p : Params) (M : ModState) : (M.start p).sending = true := rfl

@[simp] theorem DelayLine.shift_c0 (dl : DelayLine) (v : Byte) : (dl.shift v).c0 = v := rfl
@[simp] theorem DelayLine.shift_c1 (dl : DelayLine) (v : Byte) : (dl.shift v).c1 = dl.c0 := rfl
@[simp] theorem DelayLine.shift_c2 (dl : DelayLine) (v : Byte) : (dl.shift v).c2 = dl.c1 := rfl
@[simp] theorem DelayLine.shift_c3 (dl : DelayLine) (v : Byte) : (dl.shift v).c3 = dl.c2 := rfl
@[simp] theorem DelayLine.read_eq (dl : DelayLine) : dl.read = dl.c3 := rfl

end Sys2Proof.Machine
end

