-- ==== Sys2Proof/Laws/Words.lean ====
section
/-! SUPPORT. The small lemmas of the operand forms, the FIFO primitives and the tests: what each says in terms of
numbers, lists and single bits. -/

namespace Sys2Proof.Machine

/-! ## Registers -/

theorem shiftIn_toNat (r : Byte) (b : Bool) : (shiftIn r b).toNat = (2 * r.toNat + b.toNat) % 256 := by
  revert r b; decide +kernel

theorem shiftIn_getLsbD_zero (r : Byte) (b : Bool) : (shiftIn r b).getLsbD 0 = b := by
  revert r b; decide +kernel

theorem shiftIn_getLsbD_one (r : Byte) (b : Bool) : (shiftIn r b).getLsbD 1 = r.getLsbD 0 := by
  revert r b; decide +kernel

/-- Complementing the register and the bit complements the result. -/
theorem shiftIn_not (r : Byte) (b : Bool) : shiftIn (~~~r) (!b) = ~~~shiftIn r b := by
  revert r b; decide +kernel

theorem edgeFound_eq (r : Byte) : edgeFound r = (r.getLsbD 0 != r.getLsbD 1) := by
  revert r; decide +kernel

theorem edgeFound_not (r : Byte) : edgeFound (~~~r) = edgeFound r := by
  revert r; decide +kernel

/-- The edge test on the register just written compares the new decision with the last. -/
theorem edgeFound_shiftIn (r : Byte) (b : Bool) : edgeFound (shiftIn r b) = (b != r.getLsbD 0) := by
  rw [edgeFound_eq, shiftIn_getLsbD_zero, shiftIn_getLsbD_one]

theorem shiftInTop_getLsbD (r : Byte) (b : Bool) (k : Nat) :
    (shiftInTop r b).getLsbD k = if k = 7 then b else r.getLsbD (k + 1) := by
  by_cases h : k < 8
  · revert r b; interval_cases k <;> decide +kernel
  · rw [if_neg (by omega), BitVec.getLsbD_of_ge _ _ (by omega), BitVec.getLsbD_of_ge _ _ (by omega)]

/-! ## The status word -/

/-- The five bits of `STATUS` (10_state.md R55). -/
theorem statusWord_bits (p : Params) (B : Block) :
    (statusWord p B).getLsbD 0 = !fifoEmpty B.RXF ∧ (statusWord p B).getLsbD 1 = fifoFull p.rxFifoCap B.RXF ∧
    (statusWord p B).getLsbD 2 = !fifoFull p.txFifoCap B.TXF ∧ (statusWord p B).getLsbD 3 = fifoEmpty B.TXF ∧
    (statusWord p B).getLsbD 4 = B.M.sending := by
  unfold statusWord
  cases fifoEmpty B.RXF <;> cases fifoFull p.rxFifoCap B.RXF <;> cases fifoFull p.txFifoCap B.TXF <;>
    cases fifoEmpty B.TXF <;> cases B.M.sending <;> decide

/-! ## Shifts and taps -/

theorem asr_one (a : Int) : asr a 1 = a / 2 := rfl
theorem asr_two (a : Int) : asr a 2 = a / 4 := rfl
theorem asr_three (a : Int) : asr a 3 = a / 8 := rfl
theorem asr_five (a : Int) : asr a 5 = a / 32 := rfl

/-- A value that fits is held exactly. -/
theorem tapOf_eq_some {v : Int} (h : -32768 ≤ v ∧ v < 32768) : tapOf v = some (BitVec.ofInt 16 v) := by
  unfold tapOf; rw [if_pos]; omega

theorem tapOf_toInt {v : Int} {t : Tap} (h : tapOf v = some t) : t.toInt = v := by
  unfold tapOf at h
  split at h
  · cases h
    rw [BitVec.toInt_ofInt]
    exact Int.bmod_eq_of_le (by omega) (by omega)
  · cases h

/-! ## FIFOs -/

@[simp] theorem fifoFull_iff (cap : Nat) (f : List Byte) : fifoFull cap f = true ↔ f.length = cap := by
  simp [fifoFull, fifoLen]

@[simp] theorem fifoEmpty_iff (f : List Byte) : fifoEmpty f = true ↔ f = [] := by
  simp [fifoEmpty, fifoLen]

@[simp] theorem fifoPush_eq (f : List Byte) (b : Byte) : fifoPush f b = f ++ [b] := rfl
@[simp] theorem fifoPop_nil : fifoPop [] = none := rfl
@[simp] theorem fifoPop_cons (b : Byte) (f : List Byte) : fifoPop (b :: f) = some (b, f) := rfl

end Sys2Proof.Machine
end

