-- ==== Sys2Proof/Laws/Receive.lean ====
section
/-! SUPPORT. What the parts of `RX_SAMPLE` can do, each said once, for later proofs to cite instead of unfolding. -/

namespace Sys2Proof.Machine

/-! ## The discriminator -/
theorem sample_bounds (b : Byte) : -128 ≤ sample b ∧ sample b ≤ 127 := by
  unfold sample
  have h1 := BitVec.toInt_lt (x := b)
  have h2 := BitVec.le_toInt (x := b)
  simp at h1 h2
  omega

theorem filterInput_eq (raw d : Byte) : filterInput raw d = (sample raw * sample d) / 4 := rfl

/-- The bounds of the input taps, (I12) of 10_state.md R57: `-4064` from `-128 * 127`, `4096` from `-128 * -128`. -/
theorem filterInput_bounds (raw d : Byte) : -4064 ≤ filterInput raw d ∧ filterInput raw d ≤ 4096 := by
  obtain ⟨ha, hb⟩ := sample_bounds raw
  obtain ⟨hc, hd⟩ := sample_bounds d
  have h1 : -16256 ≤ sample raw * sample d := by
    nlinarith
  have h2 : sample raw * sample d ≤ 16384 := by nlinarith
  rw [filterInput_eq]; omega

theorem filterOutput_eq (xn xp yp : Int) : filterOutput xn xp yp = xn + xp + (yp / 2 + yp / 8 + yp / 32) := rfl

/-- The bounds of the output taps, (I12), are inductive (40_rx_discriminator.md R137). -/
theorem filterOutput_bounds {xn xp yp : Int} (hn : -4064 ≤ xn ∧ xn ≤ 4096) (hp : -4064 ≤ xp ∧ xp ≤ 4096)
    (hy : -23831 ≤ yp ∧ yp ≤ 23831) :
    -23831 ≤ filterOutput xn xp yp ∧ filterOutput xn xp yp ≤ 23831 := by
  rw [filterOutput_eq]; omega

/-- Everything a sample that does not overflow does to the delay line and the DemodState (R131 to R136). -/
theorem discriminate_cases {raw : Byte} {dl dl' : DelayLine} {D D' : DemodState} {b : Bool}
    (h : discriminate raw dl D = some (b, dl', D')) :
    ∃ x y, D' = D.shiftTaps x y ∧ dl' = dl.shift raw ∧ x.toInt = filterInput raw dl.c3 ∧
      y.toInt = filterOutput x.toInt D.iir_x1.toInt D.iir_y1.toInt ∧ b = decide (0 < y.toInt) := by
  unfold discriminate at h
  simp only [DelayLine.read_eq] at h
  split at h
  · rename_i x y hx hy
    cases h
    have ex := tapOf_toInt hx
    have ey := tapOf_toInt hy
    exact ⟨x, y, rfl, rfl, ex, by rw [ex, ey], by rw [ey]; rfl⟩
  · cases h

/-- Within the bounds no tap overflows (R137). -/
theorem discriminate_completes (raw : Byte) (dl : DelayLine) {D : DemodState}
    (hx : -4064 ≤ D.iir_x1.toInt ∧ D.iir_x1.toInt ≤ 4096)
    (hy : -23831 ≤ D.iir_y1.toInt ∧ D.iir_y1.toInt ≤ 23831) :
    ∃ b x y, discriminate raw dl D = some (b, dl.shift raw, D.shiftTaps x y) := by
  have h1 := filterInput_bounds raw dl.read
  have h2 := filterOutput_bounds h1 hx hy
  unfold discriminate
  simp only [tapOf_eq_some (v := filterInput raw dl.read) (by omega),
    tapOf_eq_some (v := filterOutput (filterInput raw dl.read) D.iir_x1.toInt D.iir_y1.toInt) (by omega)]
  exact ⟨_, _, _, rfl⟩

/-! ## The bit synchronizer -/
/-- The decision enters the register of raw decisions (R151). -/
theorem bitSync_sampled (b : Bool) (D : DemodState) : (bitSync b D).2.sampled_bits = shiftIn D.sampled_bits b := by
  unfold bitSync; dsimp only; split <;> rfl

/-- The advanced phase in terms of the new decision and the last one (41_rx_bitsync.md R152 to R154). -/
theorem advancedPhase_shiftIn (b : Bool) (D : DemodState) :
    advancedPhase D (shiftIn D.sampled_bits b) =
      (if b = D.sampled_bits.getLsbD 0 then D.curr_phase.toNat
        else if D.curr_phase.toNat < 32 then D.curr_phase.toNat + 1 else D.curr_phase.toNat - 1) + 8 := by
  unfold advancedPhase correctPhase
  rw [edgeFound_shiftIn]
  by_cases h : b = D.sampled_bits.getLsbD 0 <;> simp only [bne_iff_ne, ne_eq, h, not_true_eq_false, not_false_eq_true, if_true, if_false] <;> rfl

/-- Everything the synchronizer does on one decision (R155, R156). -/
theorem bitSync_cases (b : Bool) (D : DemodState) :
    let adv := advancedPhase D (shiftIn D.sampled_bits b)
    let found := shiftIn D.found_bits b
    if 64 ≤ adv then
      bitSync b D = (some (nrziDecode found),
        { D with sampled_bits := shiftIn D.sampled_bits b, curr_phase := BitVec.ofNat 6 (adv % 64), found_bits := found })
    else
      bitSync b D = (none, { D with sampled_bits := shiftIn D.sampled_bits b, curr_phase := BitVec.ofNat 6 adv }) := by
  intro adv found
  have h0 := shiftIn_getLsbD_zero D.sampled_bits b
  split
  · rename_i h
    unfold bitSync
    rw [if_pos (show PHASE_MAX ≤ advancedPhase D (shiftIn D.sampled_bits b) from h), h0]; rfl
  · rename_i h
    unfold bitSync
    rw [if_neg (show ¬ PHASE_MAX ≤ advancedPhase D (shiftIn D.sampled_bits b) from h)]

/-- The synchronizer leaves the filter alone. -/
theorem bitSync_taps (b : Bool) (D : DemodState) :
    (bitSync b D).2.iir_x0 = D.iir_x0 ∧ (bitSync b D).2.iir_x1 = D.iir_x1 ∧
    (bitSync b D).2.iir_y0 = D.iir_y0 ∧ (bitSync b D).2.iir_y1 = D.iir_y1 := by
  have h := bitSync_cases b D
  dsimp only at h
  split at h <;> rw [h] <;> exact ⟨rfl, rfl, rfl, rfl⟩

@[simp] theorem bitSync_iir_x0 (b : Bool) (D : DemodState) : (bitSync b D).2.iir_x0 = D.iir_x0 := (bitSync_taps b D).1
@[simp] theorem bitSync_iir_x1 (b : Bool) (D : DemodState) : (bitSync b D).2.iir_x1 = D.iir_x1 := (bitSync_taps b D).2.1
@[simp] theorem bitSync_iir_y0 (b : Bool) (D : DemodState) : (bitSync b D).2.iir_y0 = D.iir_y0 := (bitSync_taps b D).2.2.1
@[simp] theorem bitSync_iir_y1 (b : Bool) (D : DemodState) : (bitSync b D).2.iir_y1 = D.iir_y1 := (bitSync_taps b D).2.2.2

/-- The phase register keeps the advanced phase modulo 64 (R154, R155). -/
theorem bitSync_phase (b : Bool) (D : DemodState) :
    (bitSync b D).2.curr_phase.toNat = advancedPhase D (shiftIn D.sampled_bits b) % 64 := by
  have h := bitSync_cases b D
  dsimp only at h
  split at h <;> rw [h] <;> simp

/-! ## The deframer -/
theorem isFlag_iff (w : Byte) : isFlag w = true ↔ w = 0x7E := beq_iff_eq
theorem isAbort_iff (w : Byte) : isAbort w = true ↔ w &&& 0x7F = 0x7F := beq_iff_eq
theorem isStuffed_iff (w : Byte) : isStuffed w = true ↔ w &&& 0x3F = 0x3E := beq_iff_eq
theorem isSpecial_iff (c : Byte) : isSpecial c = true ↔ c = 0x7E ∨ c = 0x7F ∨ c = 0x1B := by
  simp only [isSpecial, HDLC_FLAG, HDLC_RESET, ESC, Bool.or_eq_true, beq_iff_eq, or_assoc]
theorem isControl_iff (c : Byte) : isControl c = true ↔ c = 0x7E ∨ c = 0x7F := by
  simp only [isControl, HDLC_FLAG, HDLC_RESET, Bool.or_eq_true, beq_iff_eq]

/-- Everything the deframer does on one bit, in the order of 42_rx_deframer.md R180. -/
theorem hdlcRx_cases (cap : Nat) (bit : Bool) (H : HdlcRxState) (f : List Byte) :
    let w := shiftIn H.demod_bits bit
    (isFlag w = true ∧ hdlcRx cap bit H f =
      if f.length = cap then (⟨w, false, 0, 0⟩, f) else (⟨w, true, 0, 0⟩, f ++ [0x7E])) ∨
    (isFlag w = false ∧ isAbort w = true ∧ hdlcRx cap bit H f = (⟨w, false, 0, 0⟩, f)) ∨
    (isFlag w = false ∧ isAbort w = false ∧ H.in_sync = false ∧ hdlcRx cap bit H f = ({ H with demod_bits := w }, f)) ∨
    (isFlag w = false ∧ isAbort w = false ∧ H.in_sync = true ∧ isStuffed w = true ∧
      hdlcRx cap bit H f = ({ H with demod_bits := w }, f)) ∨
    (isFlag w = false ∧ isAbort w = false ∧ H.in_sync = true ∧ isStuffed w = false ∧
      hdlcRx cap bit H f = acceptBit cap bit { H with demod_bits := w } f) := by
  intro w
  have e : hdlcRx cap bit H f =
      if isFlag w then acceptFlag cap { H with demod_bits := w } f
      else if isAbort w then (({ H with demod_bits := w } : HdlcRxState).restart false, f)
      else if !H.in_sync then ({ H with demod_bits := w }, f)
      else if isStuffed w then ({ H with demod_bits := w }, f)
      else acceptBit cap bit { H with demod_bits := w } f := rfl
  rw [e]
  cases isFlag w
  · cases isAbort w
    · cases H.in_sync <;> cases isStuffed w <;> simp
    · simp [HdlcRxState.restart]
  · simp [acceptFlag, HdlcRxState.restart, HDLC_FLAG]

theorem tryPush_cases (cap : Nat) (b : Byte) (sync : Bool) (f : List Byte) :
    tryPush cap b sync f = if f.length = cap then (false, f) else (sync, f ++ [b]) := by
  unfold tryPush; simp

/-- Everything the push of a completed byte does (R179): none, one or two bytes. -/
theorem pushByte_cases (cap : Nat) (c : Byte) (sync : Bool) (f : List Byte) :
    pushByte cap c sync f =
      if f.length = cap then (false, f)
      else if isSpecial c then (if f.length + 1 = cap then (false, f ++ [ESC]) else (sync, f ++ [ESC, c]))
      else (sync, f ++ [c]) := by
  unfold pushByte
  simp only [tryPush_cases]
  cases isSpecial c <;> by_cases h : f.length = cap <;> by_cases h' : f.length + 1 = cap <;> simp [h, h']

/-- The RX FIFO only grows at its young end and not past its capacity; a full one stays as it is. -/
theorem pushByte_fifo (cap : Nat) (c : Byte) (sync : Bool) (f : List Byte) :
    ∃ bs, (pushByte cap c sync f).2 = f ++ bs ∧ (f.length ≤ cap → (f ++ bs).length ≤ cap) ∧ bs.length ≤ 2 := by
  rw [pushByte_cases]
  split
  · exact ⟨[], by simp, by simp, by simp⟩
  · split
    · split
      · exact ⟨[ESC], rfl, by simp; omega, by simp⟩
      · exact ⟨[ESC, c], rfl, by simp; omega, by simp⟩
    · exact ⟨[c], rfl, by simp; omega, by simp⟩

theorem acceptBit_fifo (cap : Nat) (bit : Bool) (H : HdlcRxState) (f : List Byte) :
    ∃ bs, (acceptBit cap bit H f).2 = f ++ bs ∧ (f.length ≤ cap → (f ++ bs).length ≤ cap) ∧ bs.length ≤ 2 := by
  unfold acceptBit
  dsimp only
  split
  · exact pushByte_fifo _ _ _ _
  · exact ⟨[], by simp, by simp, by simp⟩

/-- One bit appends at most two bytes, at the young end and within the capacity. -/
theorem hdlcRx_fifo (cap : Nat) (bit : Bool) (H : HdlcRxState) (f : List Byte) :
    ∃ bs, (hdlcRx cap bit H f).2 = f ++ bs ∧ (f.length ≤ cap → (f ++ bs).length ≤ cap) ∧ bs.length ≤ 2 := by
  obtain ⟨-, h⟩ | ⟨-, -, h⟩ | ⟨-, -, -, h⟩ | ⟨-, -, -, -, h⟩ | ⟨-, -, -, -, h⟩ := hdlcRx_cases cap bit H f
  · rw [h]; split
    · exact ⟨[], by simp, by simp, by simp⟩
    · exact ⟨[0x7E], rfl, by simp; omega, by simp⟩
  · exact ⟨[], by simp [h], by simp, by simp⟩
  · exact ⟨[], by simp [h], by simp, by simp⟩
  · exact ⟨[], by simp [h], by simp, by simp⟩
  · rw [h]; exact acceptBit_fifo _ _ _ _

theorem deframe_fifo (cap : Nat) (e : Option Bool) (H : HdlcRxState) (f : List Byte) :
    ∃ bs, (deframe cap e H f).2 = f ++ bs ∧ (f.length ≤ cap → (f ++ bs).length ≤ cap) ∧ bs.length ≤ 2 := by
  cases e with
  | none => exact ⟨[], by simp [deframe], by simp, by simp⟩
  | some b => exact hdlcRx_fifo _ _ _ _

/-! ## The whole sample -/
/-- Everything a completed sample does to the block; whether it completes does not depend on the FIFO's capacity. -/
theorem rxSample_cases {cap : Nat} {arg : Byte} {B C : Block} (h : rxSample cap arg B = some C) :
    ∃ x y, x.toInt = filterInput arg B.DL.c3 ∧ y.toInt = filterOutput x.toInt B.D.iir_x1.toInt B.D.iir_y1.toInt ∧
      ∀ cap', rxSample cap' arg B =
        let r := bitSync (decide (0 < y.toInt)) (B.D.shiftTaps x y)
        let d := deframe cap' r.1 B.H B.RXF
        some (B.withRx (B.DL.shift arg) r.2 d.1 d.2) := by
  unfold rxSample at h
  cases hd : discriminate arg B.DL B.D with
  | none => rw [hd] at h; cases h
  | some v =>
    obtain ⟨b, dl, D1⟩ := v
    obtain ⟨x, y, rfl, rfl, hx, hy, rfl⟩ := discriminate_cases hd
    exact ⟨x, y, hx, hy, fun cap' => by unfold rxSample; rw [hd]⟩

/-- Everything a completed `RX_SAMPLE` does. -/
theorem execRxSample_cases {arg : Byte} {s t : State} (h : execRxSample arg s = .next t) :
    ∃ x y, x.toInt = filterInput arg s.S.DL.c3 ∧
      y.toInt = filterOutput x.toInt s.S.D.iir_x1.toInt s.S.D.iir_y1.toInt ∧
      let r := bitSync (decide (0 < y.toInt)) (s.S.D.shiftTaps x y)
      let d := deframe s.params.rxFifoCap r.1 s.S.H s.S.RXF
      t = s.answer (s.S.withRx (s.S.DL.shift arg) r.2 d.1 d.2) Response.done := by
  unfold execRxSample at h
  split at h
  · rename_i C hC
    obtain ⟨x, y, hx, hy, hall⟩ := rxSample_cases hC
    cases h
    exact ⟨x, y, hx, hy, by rw [hall] at hC; rw [← Option.some.inj hC]⟩
  · cases h

/-- `RX_SAMPLE` completes within the bounds of the taps. -/
theorem execRxSample_completes (arg : Byte) {s : State}
    (hx : -4064 ≤ s.S.D.iir_x1.toInt ∧ s.S.D.iir_x1.toInt ≤ 4096)
    (hy : -23831 ≤ s.S.D.iir_y1.toInt ∧ s.S.D.iir_y1.toInt ≤ 23831) : ∃ t, execRxSample arg s = .next t := by
  obtain ⟨b, x, y, h⟩ := discriminate_completes arg s.S.DL hx hy
  unfold execRxSample rxSample
  rw [h]
  exact ⟨_, rfl⟩

end Sys2Proof.Machine
end

