-- ==== Sys2Proof/Laws/Runs.lean ====
section
/-! SUPPORT. The operations in one form each, the inversion of a step, and runs one operation at a time. -/

namespace Sys2Proof.Machine

@[simp] theorem run_nil (s : State) : run [] s = some [] := rfl

/-- The first operation of a run. -/
theorem run_cons_some {i : Instr} {is : List Instr} {s : State} {es : List Event}
    (h : run (i :: is) s = some es) :
    ∃ t rest, exec i s = .next t ∧ run is t = some rest ∧ es = ⟨i, s, t⟩ :: rest := by
  unfold run at h
  split at h
  · rename_i t ht
    obtain ⟨rest, hr, rfl⟩ := Option.map_eq_some_iff.mp h
    exact ⟨t, rest, ht, hr, rfl⟩
  · cases h
  · cases h

theorem run_cons_of_next {i : Instr} {is : List Instr} {s t : State} (h : exec i s = .next t) :
    run (i :: is) s = (run is t).map (⟨i, s, t⟩ :: ·) := by
  rw [run, h]

@[simp] theorem finish_nil (s : State) : finish s [] = s := rfl
@[simp] theorem finish_cons (s : State) (e : Event) (es : List Event) : finish s (e :: es) = finish e.after es := rfl

/-- A run in two parts. -/
theorem run_append {is js : List Instr} : ∀ {s : State} {es : List Event}, run (is ++ js) s = some es →
    ∃ es1 es2, run is s = some es1 ∧ run js (finish s es1) = some es2 ∧ es = es1 ++ es2 := by
  induction is with
  | nil => exact fun h => ⟨[], _, rfl, h, rfl⟩
  | cons i is ih =>
    intro s es h
    obtain ⟨t, rest, he, hr, rfl⟩ := run_cons_some h
    obtain ⟨es1, es2, h1, h2, rfl⟩ := ih hr
    exact ⟨⟨i, s, t⟩ :: es1, es2, by rw [run_cons_of_next he, h1]; rfl, h2, rfl⟩

theorem finish_append (s : State) (es1 es2 : List Event) : finish s (es1 ++ es2) = finish (finish s es1) es2 := by
  induction es1 generalizing s with
  | nil => rfl
  | cons e es1 ih => exact ih _

/-! ## The operations, one form each -/

theorem exec_nop (s : State) : exec .nop s = .next (s.answer s.S Response.done) := rfl
theorem exec_init (s : State) : exec .init s = .next (s.answer (Block.reset s.params) Response.done) := rfl
theorem exec_rdStatus (s : State) :
    exec .rdStatus s = .next (s.answer s.S { ok := true, data := statusWord s.params s.S }) := rfl
theorem exec_txStart (s : State) :
    exec .txStart s =
      .next (s.answer (if s.S.M.sending then s.S else s.S.withM (s.S.M.start s.params)) Response.done) := rfl
theorem exec_txTick (s : State) :
    exec .txTick s = .next (s.answer
      (s.S.withTx (txTick s.params s.S.M s.S.TXF).2.1 (txTick s.params s.S.M s.S.TXF).2.2)
      (txTick s.params s.S.M s.S.TXF).1) := rfl

theorem exec_txPush_full (b : Byte) {s : State} (h : s.S.TXF.length = s.params.txFifoCap) :
    exec (.txPush b) s = .next (s.answer s.S Response.rejected) := by
  show execTxPush b s = _
  unfold execTxPush
  rw [if_pos (by simpa using h)]

theorem exec_txPush_room (b : Byte) {s : State} (h : s.S.TXF.length ≠ s.params.txFifoCap) :
    exec (.txPush b) s = .next (s.answer (s.S.withTXF (s.S.TXF ++ [b])) Response.done) := by
  show execTxPush b s = _
  unfold execTxPush
  rw [if_neg (by simpa using h)]; rfl

theorem exec_rxPop_empty {s : State} (h : s.S.RXF = []) : exec .rxPop s = .next (s.answer s.S Response.rejected) := by
  show execRxPop s = _
  unfold execRxPop; rw [h]; rfl

theorem exec_rxPop_cons {s : State} {b : Byte} {rest : List Byte} (h : s.S.RXF = b :: rest) :
    exec .rxPop s = .next (s.answer (s.S.withRXF rest) { ok := true, data := b }) := by
  show execRxPop s = _
  unfold execRxPop; rw [h]; rfl

/-- What a completed sample wants to push, in terms of the deframer. -/
theorem rxWanted_of_some {cap : Nat} {arg : Byte} {B C : Block} (h : rxSample cap arg B = some C) :
    ∃ x y, x.toInt = filterInput arg B.DL.c3 ∧ y.toInt = filterOutput x.toInt B.D.iir_x1.toInt B.D.iir_y1.toInt ∧
      rxWanted arg B = (deframe (B.RXF.length + 2) (bitSync (decide (0 < y.toInt)) (B.D.shiftTaps x y)).1 B.H
        B.RXF).2.drop B.RXF.length := by
  obtain ⟨x, y, hx, hy, hall⟩ := rxSample_cases h
  exact ⟨x, y, hx, hy, by unfold rxWanted; rw [hall]; rfl⟩

/-- A sample wants to push at most two bytes. -/
theorem rxWanted_length (arg : Byte) (B : Block) : (rxWanted arg B).length ≤ 2 := by
  unfold rxWanted
  split
  · rename_i C hC
    obtain ⟨x, y, -, -, hall⟩ := rxSample_cases hC
    rw [hall] at hC
    cases hC
    obtain ⟨bs, hb, -, hl⟩ := deframe_fifo (B.RXF.length + 2)
      (bitSync (decide (0 < y.toInt)) (B.D.shiftTaps x y)).1 B.H B.RXF
    simp only [Block.withRx_RXF, hb, List.drop_left]
    exact hl
  · exact Nat.zero_le _

/-! ## Steps -/

/-- A run of the host's interface, one step at a time. -/
theorem run_succ_of_next (C : Host.Core) (n : Nat) {s t : C.State} (h : C.step s = .next t) :
    C.run (n + 1) s = C.run n t := by
  simp only [Host.Core.run, h]

/-- The same for the machine's own step. -/
theorem core_run_next {s t : State} (n : Nat) (h : step s = .next t) :
    Sys2Proof.core.run (n + 1) s = Sys2Proof.core.run n t := run_succ_of_next Sys2Proof.core n h

/-- Everything a step can do. -/
theorem step_cases {s t : State} (h : step s = .next t) :
    s.params.valid = true ∧ ((s.inbox = [] ∧ t = s.quiet) ∨
      ∃ a rest i, s.inbox = a :: rest ∧ decode a.word = .ok i ∧ exec i (s.taken rest) = .next t) := by
  unfold step at h
  split at h
  · rename_i hv
    refine ⟨hv, ?_⟩
    split at h
    · rename_i hi
      cases h
      exact .inl ⟨hi, rfl⟩
    · rename_i a rest hi
      split at h
      · rename_i i hd
        exact .inr ⟨a, rest, i, hi, hd, h⟩
      · cases h
  · cases h

end Sys2Proof.Machine
end

