-- ==== Sys2Proof/Laws/Realisations.lean ====
section
/-! SUPPORT. The ring of the delay line realises the delay line, and what the host procedures and the byte
conventions mean in terms of the state. -/

namespace Sys2Proof.Machine

/-! ## The delay ring (10_state.md R32) -/

/-- A ring of four cells, cell by cell. -/
theorem DelayRing.wf_cells {r : DelayRing} (h : r.wf = true) :
    ∃ a b c d, r.cells = [a, b, c, d] ∧ (r.oldest = 0 ∨ r.oldest = 1 ∨ r.oldest = 2 ∨ r.oldest = 3) := by
  obtain ⟨cells, oldest⟩ := r
  rw [DelayRing.wf, Bool.and_eq_true, beq_iff_eq, decide_eq_true_eq] at h
  have hl : cells.length = 4 := h.1
  have ho : oldest < 4 := h.2
  match cells, hl with
  | [a, b, c, d], _ => exact ⟨a, b, c, d, rfl, by simp only; omega⟩

/-- Writing over the oldest sample and moving the index is the shift of the delay line; reading is reading it. -/
theorem DelayRing.write_realises_shift {r : DelayRing} (h : r.wf = true) (v : Byte) :
    r.read = r.line.read ∧ (r.write v).wf = true ∧ (r.write v).line = r.line.shift v := by
  obtain ⟨a, b, c, d, hc, ho⟩ := DelayRing.wf_cells h
  obtain ⟨cells, oldest⟩ := r
  simp only at hc ho
  subst hc
  obtain rfl | rfl | rfl | rfl := ho <;>
    exact ⟨rfl, by simp [DelayRing.write, DelayRing.wf, DELAY_LEN],
      by simp [DelayRing.write, DelayRing.line, DelayRing.cell, DelayLine.shift, DELAY_LEN]⟩

/-! ## The host procedures (45_host_fifo_ops.md R262, R264) -/

/-- `flush` ends exactly on a response that was given while the modulator was idle. -/
theorem flushEnds_iff (p : Params) (B : Block) :
    flushEnds { ok := true, data := statusWord p B } = true ↔ B.M.sending = false := by
  rw [flushEnds, (statusWord_bits p B).2.2.2.2]; simp

/-- Everything one turn of a host procedure can do: nothing where it has returned; otherwise the others run, then its
operation, and the rest of the turns go on with the response. -/
theorem hostRun_cons {σ : Type} {issue : σ → Option Instr} {after : σ → Bool → Response → σ} {turn : Turn}
    {turns : List Turn} {c c' : σ} {s : State} {es : List Event}
    (h : hostRun issue after (turn :: turns) c s = some (c', es)) :
    (issue c = none ∧ c' = c ∧ es = []) ∨
    ∃ i es1 t r es2, issue c = some i ∧ run turn.others s = some es1 ∧ exec i (finish s es1) = .next t ∧
      t.resp = some r ∧ hostRun issue after turns (after c turn.elapsed r) t = some (c', es2) ∧
      es = es1 ++ ⟨i, finish s es1, t⟩ :: es2 := by
  unfold hostRun at h
  split at h
  · cases h; exact .inl ⟨by assumption, rfl, rfl⟩
  · rename_i i hi
    split at h
    · cases h
    · rename_i es0 hr
      obtain ⟨es1, es2, h1, h2, rfl⟩ := run_append hr
      obtain ⟨t, rest, he, hrest, rfl⟩ := run_cons_some h2
      cases hrest
      simp only [finish_append, finish_cons, finish_nil] at h
      split at h
      · cases h
      · rename_i r hresp
        obtain ⟨o, ho, hes⟩ := Option.map_eq_some_iff.mp h
        cases hes
        exact .inr ⟨i, es1, t, r, o.2, hi, h1, he, hresp, ho, by simp⟩

/-- A loop that has ended asks for nothing and stays ended; one under way asks for its operation. -/
@[simp] theorem Loop.issue_asking (i : Instr) : Loop.issue i .asking = some i := rfl
@[simp] theorem Loop.issue_ended (i : Instr) : Loop.issue i .ended = none := rfl
@[simp] theorem Loop.after_ended (e : Response → Bool) (r : Response) : Loop.after e .ended r = .ended := rfl
@[simp] theorem Loop.after_asking (e : Response → Bool) (r : Response) :
    Loop.after e .asking r = if e r then .ended else .asking := rfl

/-- What `write` has still to push. -/
def WriteProc.pending (w : WriteProc) : List Byte :=
  match w.stage with
  | .polling b rest | .pushing b rest => b :: rest
  | .starting rest => rest
  | .returned => []

@[simp] theorem WriteProc.next_pending (form : WaitForm) (n : Nat) (bs : List Byte) :
    (WriteProc.next form n bs).pending = bs := by
  cases bs <;> cases form <;> rfl
@[simp] theorem WriteProc.next_written (form : WaitForm) (n : Nat) (bs : List Byte) :
    (WriteProc.next form n bs).written = n := by
  cases bs <;> cases form <;> rfl
@[simp] theorem WriteProc.next_form (form : WaitForm) (n : Nat) (bs : List Byte) :
    (WriteProc.next form n bs).form = form := by
  cases bs <;> cases form <;> rfl

@[simp] theorem WriteProc.after_form (w : WriteProc) (r : Response) : (w.after r).form = w.form := by
  unfold WriteProc.after
  split
  · split <;> rfl
  · split <;> rfl
  · exact WriteProc.next_form _ _ _
  · rfl

/-- No response changes how many bytes are counted or still to push, taken together. -/
theorem WriteProc.after_total (w : WriteProc) (r : Response) :
    (w.after r).written + (w.after r).pending.length = w.written + w.pending.length := by
  obtain ⟨form, stage, n⟩ := w
  cases stage with
  | polling b rest => simp only [WriteProc.after]; split <;> rfl
  | pushing b rest =>
    simp only [WriteProc.after]
    split
    · simp only [WriteProc.pending, List.length_cons]; omega
    · rfl
  | starting rest =>
    show (WriteProc.next form n rest).written + (WriteProc.next form n rest).pending.length = n + rest.length
    simp
  | returned => rfl

/-- A `write` that has returned answers the count of bytes it has pushed, and has none left. -/
theorem WriteProc.bytesWritten_eq {w : WriteProc} {n : Nat} (h : w.bytesWritten = some n) :
    n = w.written ∧ w.pending = [] := by
  obtain ⟨form, stage, m⟩ := w
  cases stage <;> simp_all [WriteProc.bytesWritten, WriteProc.pending]

/-- A `read` that has returned asks for nothing. -/
theorem ReadProc.issue_finished {r : ReadProc} (h : r.finished = true) : r.issue = none := by simp [ReadProc.issue, h]

/-- A byte that was popped is the last one stored. -/
theorem ReadProc.after_byte (r : ReadProc) (e : Bool) (b : Byte) :
    (r.after e { ok := true, data := b }).buf = r.buf ++ [b] := rfl

/-- An empty FIFO adds no byte; without a timeout the read returns. -/
theorem ReadProc.after_empty (r : ReadProc) (e : Bool) :
    (r.after e Response.rejected).buf = r.buf ∧
    (r.mode = .disabled → (r.after e Response.rejected).finished = true) ∧
    (r.mode = .infiniteWait → (r.after e Response.rejected).finished = false) ∧
    (r.mode = .bounded → (r.after e Response.rejected).finished = e) := by
  refine ⟨rfl, fun h => ?_, fun h => ?_, fun h => ?_⟩ <;> simp [ReadProc.after, Response.rejected, h]

/-! ## The byte conventions (30_encoding.md R116) -/

/-- A data byte as a conforming writer writes it is read back as that data byte. -/
theorem readItems_escapeByte (v : Byte) (rest : List Byte) (h : rest ≠ []) :
    readItems (escapeByte v ++ rest) = .data v :: readItems rest := by
  unfold escapeByte
  cases hv : isSpecial v
  · obtain ⟨x, xs, rfl⟩ := List.exists_cons_of_ne_nil h
    simp only [isSpecial, Bool.or_eq_false_iff, beq_eq_false_iff_ne] at hv
    simp [readItems, itemOf, hv.1.1, hv.1.2, hv.2]
  · simp [readItems]

end Sys2Proof.Machine
end

