-- ==== Sys2Proof/Laws/Transmit.lean ====
section
/-! SUPPORT. What the parts of `TX_TICK` can do, each said once, for later proofs to cite instead of unfolding. -/

namespace Sys2Proof.Machine

theorem fetch_nil (M : ModState) : fetch M [] = (false, { M with sending := false }, []) := rfl
theorem fetch_loneEscape (M : ModState) :
    fetch M [0x1B] = (false, { M with bit_stuff_enabled := true, current_byte := 0x1B, sending := false }, []) := rfl
theorem fetch_escaped (M : ModState) (c : Byte) (f : List Byte) :
    fetch M (0x1B :: c :: f) = (true, M.load c true, f) := rfl
theorem fetch_plain (M : ModState) {b : Byte} (hb : b ≠ 0x1B) (f : List Byte) :
    fetch M (b :: f) = (true, M.load b (!isControl b), f) := by
  unfold fetch
  simp only [fifoPop_cons]
  rw [if_neg (show ¬ b = ESC from hb)]
  cases isControl b <;> rfl

/-- Everything a fetch can do. -/
theorem fetch_cases (M : ModState) (f : List Byte) :
    (f = [] ∧ fetch M f = (false, { M with sending := false }, [])) ∨
    (f = [0x1B] ∧ fetch M f =
      (false, { M with bit_stuff_enabled := true, current_byte := 0x1B, sending := false }, [])) ∨
    (∃ c rest, f = 0x1B :: c :: rest ∧ fetch M f = (true, M.load c true, rest)) ∨
    (∃ b rest, b ≠ 0x1B ∧ f = b :: rest ∧ fetch M f = (true, M.load b (!isControl b), rest)) := by
  match f with
  | [] => exact .inl ⟨rfl, rfl⟩
  | b :: rest =>
    by_cases hb : b = 0x1B
    · subst hb
      cases rest with
      | nil => exact .inr (.inl ⟨rfl, rfl⟩)
      | cons c rest => exact .inr (.inr (.inl ⟨c, rest, rfl, rfl⟩))
    · exact .inr (.inr (.inr ⟨b, rest, hb, rfl, fetch_plain M hb rest⟩))

/-- A fetch takes bytes from the old end only. -/
theorem fetch_fifo (M : ModState) (f : List Byte) : ∃ bs, f = bs ++ (fetch M f).2.2 := by
  obtain ⟨rfl, h⟩ | ⟨rfl, h⟩ | ⟨c, rest, rfl, h⟩ | ⟨b, rest, -, rfl, h⟩ := fetch_cases M f <;> rw [h]
  · exact ⟨[], rfl⟩
  · exact ⟨[0x1B], rfl⟩
  · exact ⟨[0x1B, c], rfl⟩
  · exact ⟨[b], rfl⟩

theorem ready_cases (M : ModState) (f : List Byte) :
    ready M f = if M.bit_mask = 0 then fetch M f else (true, M, f) := rfl

/-- The start of a slot takes bytes from the old end only. -/
theorem ready_fifo (M : ModState) (f : List Byte) : ∃ bs, f = bs ++ (ready M f).2.2 := by
  rw [ready_cases]; split
  · exact fetch_fifo M f
  · exact ⟨[], rfl⟩

/-- A slot start without a byte: the modulator goes idle. -/
theorem ready_false {M M' : ModState} {f f' : List Byte} (h : ready M f = (false, M', f')) :
    M.bit_mask = 0 ∧ f' = [] ∧ ((f = [] ∧ M' = { M with sending := false }) ∨
      (f = [0x1B] ∧ M' = { M with bit_stuff_enabled := true, current_byte := 0x1B, sending := false })) := by
  rw [ready_cases] at h
  split at h
  · rename_i hm
    obtain ⟨rfl, e⟩ | ⟨rfl, e⟩ | ⟨c, rest, rfl, e⟩ | ⟨b, rest, -, rfl, e⟩ := fetch_cases M f <;> rw [e] at h <;>
      simp only [Prod.mk.injEq, Bool.true_eq_false, false_and] at h
    · exact ⟨hm, h.2.2.symm, .inl ⟨rfl, h.2.1.symm⟩⟩
    · exact ⟨hm, h.2.2.symm, .inr ⟨rfl, h.2.1.symm⟩⟩
  · simp at h

/-- A slot start with a byte: registers the byte fetch does not touch. -/
theorem ready_true {M M' : ModState} {f f' : List Byte} (h : ready M f = (true, M', f')) :
    (M.bit_mask ≠ 0 ∧ M' = M ∧ f' = f) ∨ (M.bit_mask = 0 ∧ ∃ c st, M' = M.load c st ∧
      (st = false → isControl c = true)) := by
  rw [ready_cases] at h
  split at h
  · rename_i hm
    right
    refine ⟨hm, ?_⟩
    obtain ⟨rfl, e⟩ | ⟨rfl, e⟩ | ⟨c, rest, rfl, e⟩ | ⟨b, rest, -, rfl, e⟩ := fetch_cases M f <;> rw [e] at h <;>
      simp only [Prod.mk.injEq, Bool.false_eq_true, false_and] at h
    · exact ⟨c, true, h.2.1.symm, by simp⟩
    · exact ⟨b, !isControl b, h.2.1.symm, by simp⟩
  · rename_i hm
    simp only [Prod.mk.injEq, true_and] at h
    exact .inl ⟨hm, h.1.symm, h.2.symm⟩

theorem stuffDue_iff (M : ModState) : M.stuffDue = true ↔ M.bit_stuff_enabled = true ∧ 5 ≤ M.consecutive_ones.toNat := by
  rw [ModState.stuffDue, Bool.and_eq_true, decide_eq_true_eq]; rfl

theorem dataBit_iff (M : ModState) : M.dataBit = true ↔ M.current_byte &&& M.bit_mask ≠ 0 := by
  simp [ModState.dataBit]

/-- Everything the line bit of a slot can do. -/
theorem sendBit_cases (p : Params) (M : ModState) :
    (M.stuffDue = true ∧ M.sendBit p = { M.switchTone p with consecutive_ones := 0 }) ∨
    (M.stuffDue = false ∧ M.dataBit = true ∧ M.sendBit p =
      { M with consecutive_ones := M.consecutive_ones + 1, bit_mask := M.bit_mask <<< 1 }) ∨
    (M.stuffDue = false ∧ M.dataBit = false ∧ M.sendBit p =
      { M.switchTone p with consecutive_ones := 0, bit_mask := M.bit_mask <<< 1 }) := by
  unfold ModState.sendBit ModState.sendData
  cases M.stuffDue
  · cases M.dataBit <;> simp
  · simp

/-- What the line bit of a slot leaves alone. -/
theorem sendBit_keeps (p : Params) (M : ModState) :
    (M.sendBit p).current_byte = M.current_byte ∧ (M.sendBit p).bit_stuff_enabled = M.bit_stuff_enabled ∧
    (M.sendBit p).sending = M.sending ∧ (M.sendBit p).phase_acc = M.phase_acc := by
  obtain ⟨_, e⟩ | ⟨_, _, e⟩ | ⟨_, _, e⟩ := sendBit_cases p M <;> rw [e] <;> exact ⟨rfl, rfl, rfl, rfl⟩

/-- A switched tone is one of the two. -/
theorem switchTone_tone (p : Params) (M : ModState) :
    (M.switchTone p).phase_inc = p.markInc ∨ (M.switchTone p).phase_inc = p.spaceInc := by
  unfold ModState.switchTone; dsimp only; split
  · exact .inr rfl
  · exact .inl rfl

/-- Everything the start of a slot can do. -/
theorem startSlot_cases (p : Params) (M : ModState) (f : List Byte) :
    (∃ M' f', ready M f = (false, M', f') ∧ startSlot p M f = (false, M', f')) ∨
    (∃ M' f', ready M f = (true, M', f') ∧
      startSlot p M f = (true, { M'.sendBit p with sample_countdown := p.spbTx }, f')) := by
  unfold startSlot
  obtain ⟨⟨ok, M', f'⟩, hr⟩ : ∃ r, ready M f = r := ⟨_, rfl⟩
  cases ok
  · exact .inl ⟨M', f', hr, by rw [hr]; rfl⟩
  · exact .inr ⟨M', f', hr, by rw [hr]; simp only [if_true, countdownReg_spbTx]⟩

/-- Everything a tick can do. -/
theorem txTick_cases (p : Params) (M : ModState) (f : List Byte) :
    (M.sending = false ∧ txTick p M f = (idleResponse p, M, f)) ∨
    (M.sending = true ∧ M.sample_countdown ≠ 0 ∧
      txTick p M f = ((ddsStep M).1, (ddsStep M).2, f)) ∨
    (M.sending = true ∧ M.sample_countdown = 0 ∧ ∃ M' f', ready M f = (false, M', f') ∧
      txTick p M f = (idleResponse p, M', f')) ∨
    (M.sending = true ∧ M.sample_countdown = 0 ∧ ∃ M' f', ready M f = (true, M', f') ∧
      let M'' := { M'.sendBit p with sample_countdown := p.spbTx }
      txTick p M f = ((ddsStep M'').1, (ddsStep M'').2, f')) := by
  unfold txTick slotWork
  cases hs : M.sending
  · exact .inl ⟨rfl, rfl⟩
  · right
    by_cases hc : M.sample_countdown = 0
    · right
      rw [if_pos hc]
      obtain ⟨M', f', hr, e⟩ | ⟨M', f', hr, e⟩ := startSlot_cases p M f
      · exact .inl ⟨rfl, hc, M', f', hr, by rw [e]; rfl⟩
      · exact .inr ⟨rfl, hc, M', f', hr, by rw [e]; rfl⟩
    · exact .inl ⟨rfl, hc, by rw [if_neg hc]; rfl⟩

/-- A tick takes bytes from the old end only. -/
theorem txTick_fifo (p : Params) (M : ModState) (f : List Byte) : ∃ bs, f = bs ++ (txTick p M f).2.2 := by
  obtain ⟨-, h⟩ | ⟨-, -, h⟩ | ⟨-, -, M', f', hr, h⟩ | ⟨-, -, M', f', hr, h⟩ := txTick_cases p M f
  · exact ⟨[], by rw [h]; rfl⟩
  · exact ⟨[], by rw [h]; rfl⟩
  · obtain ⟨bs, hb⟩ := ready_fifo M f
    exact ⟨bs, by rw [hr] at hb; rw [h]; exact hb⟩
  · obtain ⟨bs, hb⟩ := ready_fifo M f
    exact ⟨bs, by rw [hr] at hb; rw [h]; exact hb⟩

end Sys2Proof.Machine
end

