-- ==== Sys2Proof/Tests/Slice0.lean ====
section
/-! SUPPORT. Tests: words written out from the encoding, ill-formed instances, single steps whose expected results stand
in the spec, and for every statement with hypotheses a concrete state and operands that meet them together. -/

namespace Sys2Proof.Tests

open Sys2Proof.Machine

/-! ## Decoding: words written out bit by bit, opcode then operand (30_encoding.md R100, R101; vector V-E1) -/

theorem test_decode_nop : decode 0b000000000000 = .ok .nop := by decide
theorem test_decode_nop_ignores_operand : decode 0b000011111111 = .ok .nop := by decide
theorem test_decode_init : decode 0b000100000000 = .ok .init := by decide
theorem test_decode_rxSample : decode 0b001010011100 = .ok (.rxSample 0x9C) ∧ sample 0x9C = -100 := by decide
theorem test_decode_rxSample_least : decode 0b001010000000 = .ok (.rxSample 0x80) ∧ sample 0x80 = -128 := by decide
theorem test_decode_txTick : decode 0b001110101011 = .ok .txTick := by decide
theorem test_decode_txPush : decode 0b010000011011 = .ok (.txPush 0x1B) := by decide
theorem test_decode_txStart : decode 0b010100000000 = .ok .txStart := by decide
theorem test_decode_rxPop : decode 0b011000000000 = .ok .rxPop := by decide
theorem test_decode_rdStatus : decode 0b011100000000 = .ok .rdStatus := by decide
theorem test_decode_reserved : decode 0b100000000000 = .error (.reservedOpcode 0x8) ∧
    decode 0b111111111111 = .error (.reservedOpcode 0xF) := by decide

/-- The host's two views of a word: the decoder's, and the step's after reset. -/
theorem test_table_words : decodeTableWord 12 0x47E = some (.txPush 0x7E) ∧ decodeTableWord 12 0x800 = none ∧
    decodeTableWord 12 0x1000 = none ∧ (State.reset.withFetchWord 12 0x264).inbox = [⟨.adc, 0x264⟩] := by decide

/-! ## Ill-formed instances, one for each check (00_scope.md R8) -/

theorem test_params_default_valid : Params.default.valid = true := by decide
theorem test_params_rate_not_a_multiple : Params.rateOk { Params.default with dacSampleRate := 9601 } = false ∧
    Params.valid { Params.default with dacSampleRate := 9601 } = false := by decide
theorem test_params_no_rate : Params.rateOk { Params.default with dacSampleRate := 0 } = false ∧
    Params.valid { Params.default with dacSampleRate := 0 } = false := by decide
/-- Both tones round to one step where the rate is far above them. -/
theorem test_params_tones_equal : Params.tonesDiffer { Params.default with dacSampleRate := 1200000 } = false ∧
    Params.valid { Params.default with dacSampleRate := 1200000 } = false := by decide
theorem test_params_mark_too_fast : Params.markOk { Params.default with dacSampleRate := 1200 } = false ∧
    Params.valid { Params.default with dacSampleRate := 1200 } = false := by decide
theorem test_params_mark_zero : Params.markOk { Params.default with dacSampleRate := 2400000 } = false := by decide
theorem test_params_space_too_fast : Params.spaceOk { Params.default with dacSampleRate := 1200 } = false := by decide
theorem test_params_rx_cap : Params.rxCapOk { Params.default with rxFifoCap := 1 } = false ∧
    Params.valid { Params.default with rxFifoCap := 1 } = false := by decide
theorem test_params_tx_cap : Params.txCapOk { Params.default with txFifoCap := 1 } = false ∧
    Params.valid { Params.default with txFifoCap := 1 } = false := by decide
theorem test_arrival_at_the_wrong_port : Arrival.conforms ⟨.dac, 0x200⟩ = false ∧ Arrival.conforms ⟨.host, 0x800⟩ = false ∧
    Arrival.conforms ⟨.adc, 0x200⟩ = true := by decide

/-! ## Small states -/

/-- A state of the default instance with the given block. -/
def st (B : Block) : State := { State.reset with S := B }

/-- A state with the given arrivals. -/
def arriving (as : List Arrival) : State := { State.reset with inbox := as }

/-- The reset block of the default instance. -/
def blk : Block := Block.reset Params.default

/-- The modulator inside a slot of the byte 0x41. -/
def modBusy : ModState :=
  { phase_acc := 64, phase_inc := 64, sample_countdown := 3, current_byte := 0x41, bit_mask := 0x02,
    bit_stuff_enabled := true, consecutive_ones := 1, sending := true }

/-- The modulator at the start of a slot, with no bit left to send. -/
def modFetch : ModState := { modBusy with sample_countdown := 0, bit_mask := 0x00 }

/-- Both agents at work, the receiver inside a byte, the filter at its bounds. -/
def busy : Block :=
  { blk with
    D := { iir_x0 := BitVec.ofInt 16 (-4064), iir_x1 := 4096, iir_y0 := BitVec.ofInt 16 (-23831), iir_y1 := 23831,
           sampled_bits := 0x00, found_bits := 0x00, curr_phase := 56 }
    H := { demod_bits := 0x00, in_sync := true, current_byte := 0xA0, bit_index := 3 }
    M := modBusy, RXF := [0x7E], TXF := [0x42] }

theorem reset_inv : State.reset.Inv where
  spec :=
    { phase := by decide, index := by decide, hunting := by decide, unfilled := by decide, rxLen := by decide
      txLen := by decide, acc := by decide, tone := by decide, countdown := by decide, mask := by decide
      idle := by decide, ones := by decide, tapsY := by decide, tapsX := by decide }
  framer := { stuffed := by decide, control := by decide, controlDone := by decide }
  countdownFits := by decide

theorem busy_inv : (st busy).Inv where
  spec :=
    { phase := by decide, index := by decide, hunting := by decide, unfilled := by decide, rxLen := by decide
      txLen := by decide, acc := by decide, tone := by decide, countdown := by decide, mask := by decide
      idle := by decide, ones := by decide, tapsY := by decide, tapsX := by decide }
  framer := { stuffed := by decide, control := by decide, controlDone := by decide }
  countdownFits := by decide

/-! ## Single steps with the results the spec gives -/

/-- The state an operation leaves, if it completes. -/
def after (i : Instr) (s : State) : Option State :=
  match exec i s with
  | .next t => some t
  | .fault _ => none
  | .refused _ => none

/-- The example of 40_rx_discriminator.md R130. -/
theorem test_rxSample_from_reset : (after (.rxSample 0x64) State.reset).map (·.S) =
    some { blk with DL := ⟨100, 0, 0, 0⟩, D := { blk.D with curr_phase := 8 } } := by decide +kernel

/-- Vector V-D1, row 5: the product 30 * 50, then -1697. -/
theorem test_rxSample_filter : (after (.rxSample 0x1E) (st { blk with
      DL := ⟨BitVec.ofInt 8 (-50), BitVec.ofInt 8 (-100), BitVec.ofInt 8 (-30), 50⟩
      D := { blk.D with iir_x1 := BitVec.ofInt 16 (-1250), iir_y1 := BitVec.ofInt 16 (-1250) } })).map
    (fun t => (t.S.D.iir_x1.toInt, t.S.D.iir_y1.toInt, t.S.D.sampled_bits)) = some (375, -1697, 0x00) := by decide +kernel

/-- The example of 42_rx_deframer.md R179: one free entry takes the escape alone. -/
theorem test_special_byte_one_free : pushByte 3 0x7E true [0xAA, 0x7E] = (false, [0xAA, 0x7E, 0x1B]) := by decide

/-- The example of 43_tx_framer.md R204, with the DDS step of its first slot (a 0, so SPACE: 117). -/
theorem test_txTick_escaped : (after .txTick (st { blk with
      M := { modFetch with phase_acc := 0, consecutive_ones := 0 }, TXF := [0x1B, 0x7E, 0x00] })).map
    (fun t => (t.S.M.current_byte, t.S.M.bit_stuff_enabled, t.S.M.phase_inc, t.S.M.phase_acc, t.S.TXF)) =
    some (0x7E, true, 117, 117, [0x00]) := by decide +kernel

/-- The example of 43_tx_framer.md R207: a stuffed 0 in the byte 0xFF. -/
theorem test_txTick_stuffed : (after .txTick (st { blk with
      M := { modFetch with current_byte := 0xFF, bit_mask := 0x20, consecutive_ones := 5, phase_inc := 117 } })).map
    (fun t => (t.S.M.consecutive_ones, t.S.M.phase_inc, t.S.M.bit_mask, t.S.M.sample_countdown)) =
    some (0, 64, 0x20, 7) := by decide +kernel

/-- Examples of 44_tx_dds.md R231 and R232. -/
theorem test_sine : sinSample 64 = 218 ∧ sinSample 192 = 217 ∧ sinSample 320 = 37 ∧ sinSample 0 = 128 ∧
    sinSample 256 = 127 ∧ sinSample 127 = 255 ∧ sinSample 128 = 255 ∧ sinSample 255 = 128 := by decide

/-- The examples of 44_tx_dds.md R234 at the default rate. -/
theorem test_increments : Params.default.markInc = 64 ∧ Params.default.spaceInc = 117 ∧ Params.default.spbTx = 8 := by
  decide

/-- The example of 45_host_fifo_ops.md R250, and the capacity boundary of R251. -/
theorem test_txPush : after (.txPush 0x7E) State.reset =
      some { State.reset with S := { blk with TXF := [0x7E] }, resp := some ⟨true, 0x00⟩ } ∧
    (after (.txPush 0x7E) (st { blk with TXF := List.replicate 32 0x41 })).map (·.resp) =
      some (some ⟨false, 0x00⟩) := by decide +kernel

/-- The example of 45_host_fifo_ops.md R252, and vector V-O2. -/
theorem test_rxPop : (after .rxPop (st { blk with RXF := [0x7E, 0x41] })).map (fun t => (t.resp, t.S.RXF)) =
      some (some ⟨true, 0x7E⟩, [0x41]) ∧
    after .rxPop State.reset = some { State.reset with resp := some ⟨false, 0x00⟩ } := by decide +kernel

/-- The example of 45_host_fifo_ops.md R254. -/
theorem test_txStart : (after .txStart (st { blk with TXF := [0x7E] })).map
    (fun t => (t.S.M.sending, statusWord t.params t.S)) = some (true, 0x14) := by decide +kernel

/-- Values of 45_host_fifo_ops.md R257. -/
theorem test_rdStatus : (after .rdStatus State.reset).map (·.resp) = some (some ⟨true, 0x0C⟩) ∧
    statusWord Params.default { blk with TXF := [0x7E] } = 0x04 ∧
    statusWord Params.default { blk with TXF := List.replicate 32 0x00 } = 0x00 ∧
    statusWord Params.default { blk with RXF := [0x7E] } = 0x0D ∧
    statusWord Params.default { blk with RXF := List.replicate 32 0x00 } = 0x0F ∧
    statusWord Params.default { blk with M := modBusy, TXF := List.replicate 32 0x00 } = 0x10 := by decide +kernel

theorem test_init : (after .init (st busy)).map (·.S) = some blk := by decide
theorem test_nop : (after .nop (st busy)).map (·.S) = some busy := by decide

/-- Vector V-E3. -/
theorem test_response_words : Response.toWord ⟨true, 0x7E⟩ = 0x17E ∧ Response.toWord ⟨false, 0x00⟩ = 0x000 ∧
    Response.toWord ⟨true, 0x0C⟩ = 0x10C := by decide

/-- Vector V-E2, and the written form of 30_encoding.md R107. -/
theorem test_pseudo_operations : (writeEvents [0x7E, 0x41]).map encode = [0x47E, 0x500, 0x441, 0x500] ∧
    (ticksEvents 3).map encode = [0x300, 0x300, 0x300] ∧
    (samplesEvents [100, BitVec.ofInt 8 (-30)]).map encode = [0x264, 0x2E2] := by decide
theorem test_written_form : writtenEvent (.txPush 0x7E) = "TX_PUSH 0x7E" ∧
    writtenResponse ⟨true, 0x0C⟩ = "-> ok=1 data=0x0C" := by decide +kernel

/-! ## Witnesses: for each statement with hypotheses, a state and operands that meet them

For a statement with several clauses, one witness for each. -/

/-- `RX_SAMPLE` completes in the two states used below. -/
theorem rxSample_reset (arg : Byte) : ∃ t, exec (.rxSample arg) State.reset = .next t :=
  execRxSample_completes arg (by decide) (by decide)
theorem rxSample_busy (arg : Byte) : ∃ t, exec (.rxSample arg) (st busy) = .next t :=
  execRxSample_completes arg (by decide) (by decide)

theorem witness_EncodeThenDecodeIsIdentity : Instr.wf (.txPush 0xFF) = true ∧ decode 0x2FF = .ok (.rxSample 0xFF) ∧
    decode 0x7FF = .ok .rdStatus ∧ (∃ r, decode 0x800 = .error r) := ⟨rfl, by decide, by decide, _, rfl⟩

theorem witness_StepExecutesTheOldestArrival :
    (arriving [⟨.adc, 0x264⟩, ⟨.host, 0x700⟩]).params.valid = true ∧
    (arriving [⟨.adc, 0x264⟩, ⟨.host, 0x700⟩]).inbox = ⟨.adc, 0x264⟩ :: [⟨.host, 0x700⟩] ∧
    decode 0x264 = .ok (.rxSample 0x64) := by decide

theorem witness_StepWithoutArrivalChangesNothing : State.reset.params.valid = true ∧ State.reset.inbox = [] := by decide

theorem witness_ReservedEventIsRefused : (arriving [⟨.host, 0x800⟩]).params.valid = true ∧
    (arriving [⟨.host, 0x800⟩]).inbox = ⟨.host, 0x800⟩ :: [] ∧ 0x800 ≤ (0x800#12).toNat ∧ 0x800 ≤ (0xFFF#12).toNat := by
  decide

theorem witness_SafeRunsNeverStop : State.Safe (arriving [⟨.adc, 0x264⟩, ⟨.dac, 0x300⟩, ⟨.host, 0x700⟩]) where
  valid := by decide
  inv := ⟨reset_inv.spec, reset_inv.framer, reset_inv.countdownFits⟩
  input := by decide

theorem witness_InvariantIsKeptByEveryStep : (st busy).params.valid = true ∧ (st busy).Inv ∧
    ∃ t, step (st busy) = .next t := ⟨by decide, busy_inv, _, rfl⟩

theorem witness_OnlyOwnersWriteTheirState : (∃ t, exec .txTick (st busy) = .next t) ∧
    (∃ t, exec (.rxSample 0x64) (st busy) = .next t) ∧ (∃ t, exec (.txPush 0x00) (st busy) = .next t) ∧
    (∃ t, exec .rxPop (st busy) = .next t) := ⟨⟨_, rfl⟩, rxSample_busy _, ⟨_, rfl⟩, ⟨_, rfl⟩⟩

theorem witness_ReceiverRegistersAreInvisibleToOthers : (∀ a, Instr.txTick ≠ .rxSample a) ∧ Instr.txTick ≠ .init ∧
    ∃ t, exec .txTick (st busy) = .next t := ⟨fun _ h => (nomatch h), by decide, _, rfl⟩

theorem witness_FilterRecurrence : ∃ t, exec (.rxSample 0x80) (st busy) = .next t := rxSample_busy _
theorem witness_SampledBitsTakeTheSignOfTheFilter : ∃ t, exec (.rxSample 0x7F) (st busy) = .next t := rxSample_busy _
theorem witness_RxSampleShiftsTapsAndDelayLine : (st busy).Inv := busy_inv
theorem witness_FourthSampleBackIsRead : (st busy).Inv := busy_inv

/-- The taps of `busy` stand at the bounds. -/
theorem witness_FilterNeverOverflows : (st busy).Inv ∧ (st busy).S.D.iir_y1.toInt = 23831 ∧
    (st busy).S.D.iir_y0.toInt = -23831 ∧ (st busy).S.D.iir_x1.toInt = 4096 ∧ (st busy).S.D.iir_x0.toInt = -4064 :=
  ⟨busy_inv, by decide, by decide, by decide, by decide⟩

/-- A silent line with the newer output tap at `y`. -/
def silent (y : Int) : State := st { blk with D := { blk.D with iir_y1 := BitVec.ofInt 16 y } }

theorem silent_inv {y : Int} (h : -23831 ≤ (BitVec.ofInt 16 y).toInt ∧ (BitVec.ofInt 16 y).toInt ≤ 23831) :
    (silent y).Inv :=
  ⟨{ reset_inv.spec with tapsY := ⟨show -23831 ≤ (0#16).toInt ∧ (0#16).toInt ≤ 23831 by decide, h⟩ }, reset_inv.framer,
    reset_inv.countdownFits⟩

/-- The clauses for a positive output, at most 0, between -4 and 0, below -5, and each fixed point. -/
theorem witness_SilenceDecaysToAFixedPoint :
    (∀ y ∈ [1, 23831, 0, -1, -3, -6, -23831, -4, -5], (silent y).Inv ∧ (silent y).S.DL = ⟨0, 0, 0, 0⟩ ∧
      (silent y).S.D.iir_x1 = 0 ∧ (silent y).S.D.iir_y1.toInt = y) := by
  intro y hy
  refine ⟨silent_inv ?_, rfl, rfl, ?_⟩ <;> revert y <;> decide

theorem witness_InvertedSamplesAreIndistinguishable : (0x81#8 : Byte) ≠ 0x80 ∧ (st busy).S.DL.c3 ≠ 0x80 ∧
    ∃ t, exec (.rxSample 0x81) (st busy) = .next t := ⟨by decide, by decide, rxSample_busy _⟩

/-- Both branches: phase 0 advances to 8; phase 56 with no edge advances to exactly 64. -/
theorem witness_WrapRunsTheDeframer : (∃ t, exec (.rxSample 0x00) State.reset = .next t) ∧
    advancedPhase State.reset.S.D 0x00 = 8 ∧ (∃ t, exec (.rxSample 0x00) (st busy) = .next t) ∧
    advancedPhase busy.D 0x00 = 64 := ⟨rxSample_reset _, by decide, rxSample_busy _, by decide⟩

theorem witness_EmissionsComeSevenToNineSamplesApart : (bitSync false { blk.D with curr_phase := 56 }).1 ≠ none ∧
    ({ blk.D with curr_phase := 7 } : DemodState).curr_phase.toNat < 8 ∧ 9 ≤ (List.replicate 9 true).length ∧
    blk.D.curr_phase.toNat < 8 := by decide

theorem witness_FlagRestartsTheFrame : shiftIn 0x3F false = 0x7E := by decide
theorem witness_AbortDiscardsThePartialByte : ∀ k, k < 7 → (shiftIn 0x3F true).getLsbD k = true := by decide

theorem witness_HuntingIgnoresAllButFlags : blk.H.in_sync = false ∧ shiftIn blk.H.demod_bits true ≠ 0x7E ∧
    shiftIn blk.H.demod_bits true &&& 0x7F ≠ 0x7F ∧
    (hdlcRx 2 false { blk.H with demod_bits := 0x3F } []).1.in_sync = true := by decide

theorem witness_StuffedZeroIsDropped : busy.H.in_sync = true ∧ shiftIn 0x1F false ≠ 0x7E ∧
    shiftIn 0x1F false &&& 0x3F = 0b111110 := by decide

/-- The deframer IN_FRAME with `k` bits of a byte accepted, so far `c`. -/
def inByte (c : Byte) (k : BitVec 3) : HdlcRxState := ⟨0x00, true, c, k⟩

/-- With fewer than seven bits; then the eighth bit 0 completing 0x41, 0x7E, 0x7F and 0x1B, at every amount of room. -/
theorem witness_DataBitIsAssembledAndTheByteIsPushed :
    (∀ c ∈ [0x82#8, 0xFC#8, 0xFE#8, 0x36#8], (inByte c 7).in_sync = true ∧ shiftIn (inByte c 7).demod_bits false ≠ 0x7E ∧
      shiftIn (inByte c 7).demod_bits false &&& 0x7F ≠ 0x7F ∧ shiftIn (inByte c 7).demod_bits false &&& 0x3F ≠ 0x3E ∧
      (inByte c 7).bit_index = 7) ∧ (inByte 0xA0 3).bit_index ≠ 7 ∧
    (inByte 0x82 7).current_byte >>> 1 ||| 0x00 = 0x41 ∧ (inByte 0xFC 7).current_byte >>> 1 ||| 0x00 = 0x7E ∧
    (inByte 0xFE 7).current_byte >>> 1 ||| 0x00 = 0x7F ∧ (inByte 0x36 7).current_byte >>> 1 ||| 0x00 = 0x1B ∧
    ([0x7E] : List Byte).length + 2 ≤ 3 ∧ ([0x7E, 0x00] : List Byte).length + 1 = 3 ∧
    ([0x7E, 0x00, 0x00] : List Byte).length = 3 ∧ ([0x7E, 0x00] : List Byte).length < 3 := by decide

/-- The bits of 0x41, least-significant first, behind a flag. -/
theorem witness_EightBitsMakeAByteLsbFirst :
    let H : HdlcRxState := ⟨0x7E, true, 0x00, 0⟩
    let bits := [true, false, false, false, false, false, true, false]
    H.in_sync = true ∧ H.bit_index = 0 ∧ bits.length = 8 ∧
    ∀ k, k < 8 → isFlag ((bits.take (k + 1)).foldl shiftIn H.demod_bits) = false ∧
      isAbort ((bits.take (k + 1)).foldl shiftIn H.demod_bits) = false ∧
      isStuffed ((bits.take (k + 1)).foldl shiftIn H.demod_bits) = false := by decide

theorem witness_IdleTickChangesNothing : State.reset.S.M.sending = false := rfl

theorem witness_UnderrunStopsTheModulator :
    (∃ t, exec .txTick (st { blk with M := modFetch, TXF := [0x41] }) = .next t ∧ t.S.TXF ≠ [0x41]) ∧
    modFetch.sending = true ∧ modFetch.sample_countdown = 0 ∧ modFetch.bit_mask = 0x00 ∧
    (st { blk with M := modFetch }).S.TXF = [] :=
  ⟨⟨_, rfl, by decide⟩, rfl, rfl, rfl, rfl⟩

/-- A control byte, an ordinary byte, an escaped byte, and a lone escape. -/
theorem witness_FetchUnescapes : modFetch.sending = true ∧ modFetch.sample_countdown = 0 ∧ modFetch.bit_mask = 0x00 ∧
    (st { blk with M := modFetch, TXF := [0x7E] }).S.TXF = 0x7E :: [] ∧ (0x7E#8 : Byte) ≠ 0x1B ∧
    (st { blk with M := modFetch, TXF := [0x1B, 0x7E] }).S.TXF = 0x1B :: [0x7E] ∧
    (st { blk with M := modFetch, TXF := [0x1B] }).S.TXF = 0x1B :: [] := by decide

theorem witness_ControlBytesAreSentUnstuffed : ((0x7F#8 : Byte) = 0x7E ∨ (0x7F#8 : Byte) = 0x7F) ∧
    (0x41#8 : Byte) ≠ 0x7E ∧ (0x41#8 : Byte) ≠ 0x7F ∧ (0x41#8 : Byte) ≠ 0x1B ∧
    ({ modBusy with bit_stuff_enabled := false } : ModState).bit_stuff_enabled = false := by decide

/-- A byte in progress and a byte just fetched, both with a stuffed 0 due. -/
theorem witness_StuffedSlotSendsAZero :
    ready { modFetch with bit_mask := 0x20, consecutive_ones := 5 } [] =
      (true, { modFetch with bit_mask := 0x20, consecutive_ones := 5 }, []) ∧
    ready { modFetch with consecutive_ones := 5 } [0x41] =
      (true, { modFetch with consecutive_ones := 5, bit_mask := 0x01 }, []) ∧
    modFetch.sending = true ∧ modFetch.sample_countdown = 0 ∧ modFetch.bit_stuff_enabled = true ∧
    5 ≤ (5#4).toNat := by decide

/-- A 1 bit and a 0 bit. -/
theorem witness_DataSlotSendsTheMaskedBit :
    ready { modFetch with bit_mask := 0x40 } [] = (true, { modFetch with bit_mask := 0x40 }, []) ∧
    ¬ (modFetch.bit_stuff_enabled = true ∧ 5 ≤ modFetch.consecutive_ones.toNat) ∧
    modFetch.current_byte &&& 0x40 ≠ 0 ∧ ready { modFetch with bit_mask := 0x80 } [] =
      (true, { modFetch with bit_mask := 0x80 }, []) ∧ modFetch.current_byte &&& 0x80 = 0 := by decide

theorem witness_SwitchToneExchangesTheTones : modBusy.phase_inc = Params.default.markInc ∧
    ({ modBusy with phase_inc := 117 } : ModState).phase_inc ≠ Params.default.markInc := by decide

theorem witness_ActiveTickAdvancesThePhase : (∃ t, exec .txTick (st busy) = .next t ∧ t.S.M.sending = true) ∧
    (∃ t, exec .txTick State.reset = .next t ∧ t.S.M.sending = false) := ⟨⟨_, rfl, by decide⟩, ⟨_, rfl, by decide⟩⟩

theorem witness_TickAnswersTheSineOrTheIdleSample :
    (∃ t, exec .txTick (st busy) = .next t ∧ t.S.M.sending = true) ∧
    (∃ t, exec .txTick State.reset = .next t ∧ t.S.M.sending = false) := witness_ActiveTickAdvancesThePhase

theorem witness_CountdownReloadsAndFalls : (st busy).params.valid = true ∧
    (∃ t, exec .txTick (st busy) = .next t ∧ t.S.M.sending = true) ∧ (st busy).S.M.sample_countdown = 3 ∧
    (∃ t, exec .txTick (st { blk with M := modFetch, TXF := [0x41] }) = .next t ∧ t.S.M.sending = true) ∧
    Params.default.spbTx < 2 ^ 4 ∧ (st busy).S.M.sample_countdown < 2 ^ (st busy).params.countdownWidth :=
  ⟨by decide, ⟨_, rfl, by decide⟩, rfl, ⟨_, rfl, by decide⟩, by decide, by decide⟩

theorem witness_SlotHoldsItsTone : (st busy).S.M.sending = true ∧ 3 ≤ (st busy).S.M.sample_countdown := by decide

theorem witness_ModulatorStopsOnlyWithAnEmptyFifo :
    (∃ t, exec .txTick (st { blk with M := modFetch }) = .next t ∧ t.S.M.sending = false) ∧
    (∃ t, exec .txTick (st { blk with M := modFetch, TXF := [0x1B] }) = .next t ∧ t.S.M.sending = false) ∧
    modFetch.sending = true ∧ Instr.txTick ≠ .init := ⟨⟨_, rfl, by decide⟩, ⟨_, rfl, by decide⟩, rfl, by decide⟩

theorem witness_SineWaveSymmetry : (255#9 : Phase).toNat ≤ 255 ∧ (0 : Fin 128) ≤ 127 := by decide

theorem witness_ToneIncrementsAreWithinHalfAStep : 0 < 1 ∧ Params.default.valid = true := by decide

theorem witness_TxPushAppendsOrRejects : (st { blk with TXF := List.replicate 31 0x00 }).S.TXF.length ≠ 32 ∧
    (st { blk with TXF := List.replicate 32 0x00 }).S.TXF.length = (st blk).params.txFifoCap := by decide

theorem witness_RxPopRemovesTheOldest : (st busy).S.RXF = 0x7E :: [] ∧ State.reset.S.RXF = [] := ⟨rfl, rfl⟩

theorem witness_TxStartStartsAnIdleModulator : State.reset.S.M.sending = false ∧ (st busy).S.M.sending = true ∧
    ∃ t u, exec .txStart State.reset = .next t ∧ exec .txStart t = .next u := ⟨rfl, rfl, _, _, rfl, rfl⟩

theorem witness_InitGivesTheResetState : (st busy).params.valid = true := by decide

/-- Each bit of `STATUS` that is kept, and both operations. -/
theorem witness_StatusMovesOneWayWithoutTheHost : (st busy).Inv ∧ (∃ t, exec .txTick (st busy) = .next t) ∧
    (∃ t, exec (.rxSample 0x64) (st busy) = .next t) ∧
    (statusWord Params.default busy).getLsbD 0 = true ∧ (statusWord Params.default busy).getLsbD 2 = true ∧
    (statusWord Params.default { blk with RXF := List.replicate 32 0x00 }).getLsbD 1 = true ∧
    State.reset.Inv ∧ (statusWord Params.default blk).getLsbD 3 = true ∧
    (statusWord Params.default blk).getLsbD 4 = false :=
  ⟨busy_inv, ⟨_, rfl⟩, rxSample_busy _, by decide, by decide, by decide, reset_inv, by decide, by decide⟩

theorem witness_RxSampleAndTxTickCommute : (st busy).Inv := busy_inv

/-- A receiver whose next bit, a 0, completes a byte: with `0x82` an ordinary one, with `0xFC` one the deframer
escapes. The RX FIFO has `n` bytes. -/
def completing (c : Byte) (n : Nat) : Block :=
  { busy with
    D := { busy.D with sampled_bits := 0x01 }
    H := ⟨0x00, true, c, 7⟩, RXF := List.replicate n 0x00 }

theorem completing_inv (c : Byte) (h : c = 0x82 ∨ c = 0xFC) {n : Nat} (hn : n ≤ 32) :
    (st (completing c n)).Inv where
  spec :=
    { busy_inv.spec with
      index := show (7#3).toNat ≤ 7 by decide
      hunting := fun h => absurd h (show ¬ (true = false) by decide)
      unfilled := show ∀ k, k ≤ 7 - (7#3).toNat → c.getLsbD k = false by obtain rfl | rfl := h <;> decide
      rxLen := show (List.replicate n (0x00 : Byte)).length ≤ 32 by rw [List.length_replicate]; exact hn }
  framer := busy_inv.framer
  countdownFits := busy_inv.countdownFits

/-- One free entry for a sample that pushes one byte, and two for one that pushes two. For the TX FIFO: an ordinary
byte, a lone escape while a byte is in progress, and a lone escape due for a fetch. -/
theorem witness_HostAndAgentOnOneFifo :
    ((st (completing 0x82 31)).Inv ∧ (completing 0x82 31).RXF ≠ [] ∧ (completing 0x82 31).RXF.length < 32 ∧
      (rxWanted 0x00 (completing 0x82 31)).length = 1) ∧
    ((st (completing 0xFC 30)).Inv ∧ (completing 0xFC 30).RXF ≠ [] ∧ (completing 0xFC 30).RXF.length < 32 ∧
      (rxWanted 0x00 (completing 0xFC 30)).length = 2 ∧ (completing 0xFC 30).RXF.length + 2 ≤ 32) ∧
    ((st busy).S.TXF ≠ [] ∧ (st busy).S.TXF.length < (st busy).params.txFifoCap ∧ (st busy).S.TXF ≠ [0x1B]) ∧
    modBusy.sample_countdown ≠ 0 ∧
    modFetch.sending = true ∧ modFetch.sample_countdown = 0 ∧ modFetch.bit_mask = 0x00 ∧
    (st { blk with M := modFetch, TXF := [0x1B] }).S.TXF = [0x1B] ∧ 2 ≤ (st blk).params.txFifoCap :=
  ⟨⟨completing_inv _ (.inl rfl) (by decide), by decide, by decide, by decide +kernel⟩,
    ⟨completing_inv _ (.inr rfl) (by decide), by decide, by decide, by decide +kernel, by decide⟩,
    by decide, by decide, rfl, rfl, rfl, rfl, by decide⟩

theorem witness_FifosDeliverInOrder : Instr.init ∉ [Instr.txPush 0x41, .txTick, .rxPop] ∧
    ∃ es, run [.txPush 0x41, .txTick, .rxPop] (st busy) = some es := ⟨by decide, _, rfl⟩

/-- A full FIFO, and one entry short of full, for each of the two. -/
theorem witness_OverflowKeepsWhatIsStored : (Instr.init ∉ [Instr.txTick] ∧ Instr.rxPop ∉ [Instr.txTick] ∧
    (∃ es, run [.txTick] (st { busy with RXF := List.replicate 32 0x00 }) = some es) ∧
    (st { busy with RXF := List.replicate 32 0x00 }).S.RXF.length = (st busy).params.rxFifoCap ∧
    (st { busy with RXF := List.replicate 31 0x00 }).S.RXF.length ≤ (st busy).params.rxFifoCap) ∧
    Instr.init ∉ [Instr.txPush 0x41] ∧ Instr.txTick ∉ [Instr.txPush 0x41] ∧
    (∃ es, run [.txPush 0x41] (st { busy with TXF := List.replicate 32 0x00 }) = some es) ∧
    (st { busy with TXF := List.replicate 32 0x00 }).S.TXF.length = (st busy).params.txFifoCap ∧
    (st { busy with TXF := List.replicate 31 0x00 }).S.TXF.length ≤ (st busy).params.txFifoCap :=
  ⟨⟨by decide, by decide, ⟨_, rfl⟩, by decide, by decide⟩, by decide, by decide, ⟨_, rfl⟩, by decide, by decide⟩

/-- A payload with every special byte, in a RX FIFO that just holds it. -/
theorem witness_LineRoundTrip : Params.default.valid = true ∧ blk.M.bit_mask = 0x00 ∧ blk.H.in_sync = false ∧
    blk.H.demod_bits = 0x00 ∧ (0x01#8 : Byte).getLsbD 0 = true ∧
    (writeFrame [0x41, 0x7E, 0x7F, 0x1B, 0xFF]).length ≤ 10 ∧
    10 * (writeFrame [0x41, 0x7E, 0x7F, 0x1B, 0xFF]).length ≤ 100 := by decide

/-- An empty ring, a full one that wraps around, and one that can be pushed to and popped from. -/
theorem witness_RingRefinesTheFifo : Ring.wf ⟨[0, 0, 0], 0, 0⟩ = true ∧ Ring.empty ⟨[0, 0, 0], 0, 0⟩ = true ∧
    Ring.wf ⟨[1, 2, 3], 2, 1⟩ = true ∧ Ring.full ⟨[1, 2, 3], 2, 1⟩ = true ∧ Ring.wf ⟨[1, 2, 3], 2, 0⟩ = true ∧
    Ring.full ⟨[1, 2, 3], 2, 0⟩ = false ∧ Ring.empty ⟨[1, 2, 3], 2, 0⟩ = false := by decide

/-- A `write` in each form that returns, the polling one past a full TX FIFO of two entries, and a `flush` that
returns at the tick after the one that stops the modulator. -/
theorem witness_WriteAndFlushDoWhatTheyPromise :
    (2 * ([0x7E, 0x41] : List Byte).length ≤ (List.replicate 4 Response.done).length ∧
      ∀ r ∈ List.replicate 4 Response.done, r.ok = true) ∧
    ((runWrite (List.replicate 5 ⟨[], false⟩) (.begin .reissue [0x7E, 0x41]) State.reset).map (·.1.bytesWritten) =
      some (some 2) ∧ State.reset.S.TXF.length ≤ State.reset.params.txFifoCap) ∧
    (runWrite [⟨[], false⟩, ⟨[.txTick], false⟩, ⟨[], false⟩, ⟨[], false⟩] (.begin .poll [0x42])
        { st { blk with M := modFetch, TXF := [0x41, 0x41] } with
          params := { Params.default with txFifoCap := 2 } }).map (·.1.bytesWritten) = some (some 1) ∧
    ((runFlush [⟨[], false⟩, ⟨[.txTick], false⟩] .asking (st { blk with M := modFetch })).map (·.1) = some .ended ∧
      modFetch.sending = true) := by decide +kernel

end Sys2Proof.Tests
end

section
/-! The filter and the slicer of a completed `RX_SAMPLE`. -/

namespace Sys2Proof.Machine

/-- The arm of `exec` for a received sample. -/
theorem exec_rxSample (arg : Byte) (s : State) : exec (.rxSample arg) s = execRxSample arg s := rfl

/-- A completed sample leaves in the taps the filter's output on the new input tap and the old taps. -/
theorem exec_rxSample_filter {arg : Byte} {s t : State} (h : exec (.rxSample arg) s = .next t) :
    t.S.D.iir_y1.toInt = filterOutput t.S.D.iir_x1.toInt s.S.D.iir_x1.toInt s.S.D.iir_y1.toInt := by
  rw [exec_rxSample] at h
  obtain ⟨x, y, -, hy, rfl⟩ := execRxSample_cases h
  simpa using hy

/-- A completed sample shifts the sign of the new output tap into the register of raw decisions. -/
theorem exec_rxSample_sampled_bits {arg : Byte} {s t : State} (h : exec (.rxSample arg) s = .next t) :
    t.S.D.sampled_bits = shiftIn s.S.D.sampled_bits (decide (0 < t.S.D.iir_y1.toInt)) := by
  rw [exec_rxSample] at h
  obtain ⟨x, y, -, -, rfl⟩ := execRxSample_cases h
  simp [bitSync_sampled]

/-- Settles O13. For a positive divisor the floor of the statement is the division of the model's shifts. -/
theorem filterRecurrence : Obligations.FilterRecurrence := by
  intro arg s t h
  rw [exec_rxSample_filter h, filterOutput_eq]
  simp [Int.fdiv_eq_ediv_of_nonneg, add_assoc]

/-- Settles O14, by the value of a register after a bit is shifted in. -/
theorem sampledBitsTakeTheSignOfTheFilter : Obligations.SampledBitsTakeTheSignOfTheFilter := by
  intro arg s t h
  rw [exec_rxSample_sampled_bits h, shiftIn_toNat]
  by_cases hy : 0 < t.S.D.iir_y1.toInt
  · rw [decide_eq_true hy, if_pos hy, Bool.toNat_true]
  · rw [decide_eq_false hy, if_neg hy, Bool.toNat_false]

end Sys2Proof.Machine
end

section
/-! The bit synchronizer and the deframer of a completed `RX_SAMPLE`. -/

namespace Sys2Proof.Machine

/-- The advanced phase does not read the filter's taps. -/
@[simp] theorem advancedPhase_shiftTaps (D : DemodState) (x y : Tap) (sampled : Byte) :
    advancedPhase (D.shiftTaps x y) sampled = advancedPhase D sampled := rfl

/-- A completed sample runs the synchronizer on its raw decision, and the deframer on what the synchronizer emits. -/
theorem exec_rxSample_sync {arg : Byte} {s t : State} (h : exec (.rxSample arg) s = .next t) :
    ∃ x y b, t.S.D = (bitSync b (s.S.D.shiftTaps x y)).2 ∧
      (t.S.H, t.S.RXF) = deframe s.params.rxFifoCap (bitSync b (s.S.D.shiftTaps x y)).1 s.S.H s.S.RXF := by
  rw [exec_rxSample] at h
  obtain ⟨x, y, -, -, rfl⟩ := execRxSample_cases h
  exact ⟨x, y, decide (0 < y.toInt), by simp, by simp⟩

/-- Settles O21, by the two cases of the synchronizer: with a wrap it emits the decoded bit, without one it emits
nothing and the advanced phase fits the register. -/
theorem wrapRunsTheDeframer : Obligations.WrapRunsTheDeframer := by
  intro arg s t h
  obtain ⟨x, y, b, hD, hd⟩ := exec_rxSample_sync h
  have hs : t.S.D.sampled_bits = shiftIn s.S.D.sampled_bits b := by simp [hD, bitSync_sampled]
  have hphase : t.S.D.curr_phase.toNat = advancedPhase s.S.D t.S.D.sampled_bits % 64 := by
    rw [hs, hD, bitSync_phase, advancedPhase_shiftTaps, DemodState.shiftTaps_sampled_bits]
  have hsync := bitSync_cases b (s.S.D.shiftTaps x y)
  simp only [advancedPhase_shiftTaps, DemodState.shiftTaps_sampled_bits, DemodState.shiftTaps_found_bits,
    ← hs] at hsync
  split at hsync
  case isTrue hwrap =>
    rw [hsync] at hD hd
    have hfound : t.S.D.found_bits = shiftIn s.S.D.found_bits b := by rw [hD]
    rw [if_pos hwrap, hfound, shiftIn_toNat, Bool.toNat, Bool.cond_eq_ite]
    exact ⟨hphase, by rw [hs, shiftIn_getLsbD_zero], hd⟩
  case isFalse hlt =>
    rw [hsync] at hD hd
    have hfound : t.S.D.found_bits = s.S.D.found_bits := by rw [hD]
    obtain ⟨hH, hF⟩ := Prod.mk.inj hd
    rw [if_neg hlt]
    exact ⟨hphase.trans (Nat.mod_eq_of_lt (Nat.lt_of_not_le hlt)), hfound, hH, hF⟩

end Sys2Proof.Machine
end

section
/-! The deframer on one bit: its window, and the bits it drops. -/

namespace Sys2Proof.Machine

theorem nrziDecode_iff (found : Byte) : nrziDecode found = true ↔ found.getLsbD 0 = found.getLsbD 1 := by
  rw [nrziDecode, edgeFound_eq, Bool.not_eq_true', bne_eq_false_iff_eq]

/-- Settles O22. -/
theorem nrziComparesTheTwoNewestBits : Obligations.NrziComparesTheTwoNewestBits := nrziDecode_iff

/-- Accepting a data bit leaves the window, which already holds the bit, alone. -/
@[simp] theorem acceptBit_demod_bits (cap : Nat) (bit : Bool) (H : HdlcRxState) (f : List Byte) :
    (acceptBit cap bit H f).1.demod_bits = H.demod_bits := by
  unfold acceptBit
  dsimp only
  split <;> rfl

/-- The window takes the bit in every case of the deframer (42_rx_deframer.md R173). -/
@[simp] theorem hdlcRx_demod_bits (cap : Nat) (bit : Bool) (H : HdlcRxState) (f : List Byte) :
    (hdlcRx cap bit H f).1.demod_bits = shiftIn H.demod_bits bit := by
  obtain ⟨-, h⟩ | ⟨-, -, h⟩ | ⟨-, -, -, h⟩ | ⟨-, -, -, -, h⟩ | ⟨-, -, -, -, h⟩ := hdlcRx_cases cap bit H f
  case inl => rw [h]; split <;> rfl
  all_goals simp [h]

/-- Settles O25, by the value of a register after a bit is shifted in. -/
theorem windowTakesEveryBit : Obligations.WindowTakesEveryBit := by
  intro cap bit H f
  rw [hdlcRx_demod_bits, shiftIn_toNat, Bool.toNat, Bool.cond_eq_ite]

/-- The two ways a bit that completes neither a flag nor an abort is dropped: the deframer is HUNTING (R176), or the
bit is a stuffed 0 (R177). -/
theorem hdlcRx_of_dropped {cap : Nat} {bit : Bool} {H : HdlcRxState} {f : List Byte}
    (hflag : isFlag (shiftIn H.demod_bits bit) = false) (habort : isAbort (shiftIn H.demod_bits bit) = false)
    (hdrop : H.in_sync = false ∨ isStuffed (shiftIn H.demod_bits bit) = true) :
    hdlcRx cap bit H f = ({ H with demod_bits := shiftIn H.demod_bits bit }, f) := by
  obtain ⟨hf, -⟩ | ⟨-, ha, -⟩ | ⟨-, -, -, h⟩ | ⟨-, -, -, -, h⟩ | ⟨-, -, hsync, hst, -⟩ := hdlcRx_cases cap bit H f
  · simp [hf] at hflag
  · simp [ha] at habort
  · exact h
  · exact h
  · simp [hsync, hst] at hdrop

/-- From HUNTING, only a flag leads to IN_FRAME. -/
theorem isFlag_of_hdlcRx_in_sync {cap : Nat} {bit : Bool} {H : HdlcRxState} {f : List Byte}
    (hhunt : H.in_sync = false) (hsync : (hdlcRx cap bit H f).1.in_sync = true) :
    isFlag (shiftIn H.demod_bits bit) = true := by
  obtain ⟨hf, -⟩ | ⟨-, -, h⟩ | ⟨-, -, -, h⟩ | ⟨-, -, hs, -⟩ | ⟨-, -, hs, -⟩ := hdlcRx_cases cap bit H f
  · exact hf
  · simp [h] at hsync
  · simp [h, hhunt] at hsync
  · simp [hs] at hhunt
  · simp [hs] at hhunt

/-- Settles O28. -/
theorem huntingIgnoresAllButFlags : Obligations.HuntingIgnoresAllButFlags := by
  intro cap bit H f hhunt
  constructor
  · intro hflag habort
    rw [ne_eq, ← isFlag_iff, Bool.not_eq_true] at hflag
    rw [ne_eq, ← isAbort_iff, Bool.not_eq_true] at habort
    exact hdlcRx_of_dropped hflag habort (.inl hhunt)
  · intro hsync
    exact (isFlag_iff _).1 (isFlag_of_hdlcRx_in_sync hhunt hsync)

/-- A stuffed 0 ends the run of 1 bits, so the window is no abort: the two patterns differ in bit 0. -/
theorem isAbort_eq_false_of_isStuffed {w : Byte} (h : isStuffed w = true) : isAbort w = false := by
  revert w; decide +kernel

/-- Settles O29. -/
theorem stuffedZeroIsDropped : Obligations.StuffedZeroIsDropped := by
  intro cap bit H f _ hflag hst
  rw [ne_eq, ← isFlag_iff, Bool.not_eq_true] at hflag
  have hst : isStuffed (shiftIn H.demod_bits bit) = true := (isStuffed_iff _).2 hst
  exact hdlcRx_of_dropped hflag (isAbort_eq_false_of_isStuffed hst) (.inr hst)

end Sys2Proof.Machine
end

section
/-! The framer of `TX_TICK`: the tone switch, the line bit of a slot, the fetch, and the ticks that start a slot. -/

namespace Sys2Proof.Machine

/-! ## The tone and the line bit -/

theorem switchTone_of_mark {p : Params} {M : ModState} (h : M.phase_inc = p.markInc) :
    M.switchTone p = { M with phase_inc := p.spaceInc } := by
  rw [ModState.switchTone, if_pos h]

theorem switchTone_of_not_mark {p : Params} {M : ModState} (h : M.phase_inc ≠ p.markInc) :
    M.switchTone p = { M with phase_inc := p.markInc } := by
  rw [ModState.switchTone, if_neg h]

/-- Settles O38. -/
theorem switchToneExchangesTheTones : Obligations.SwitchToneExchangesTheTones :=
  fun _ _ => ⟨switchTone_of_mark, switchTone_of_not_mark⟩

/-- A slot with a stuffed 0 due carries it (43_tx_framer.md R207). -/
theorem sendBit_of_stuffDue (p : Params) {M : ModState} (h : M.stuffDue = true) :
    M.sendBit p = { M.switchTone p with consecutive_ones := 0 } :=
  if_pos h

/-- A slot with no stuffed 0 due carries a data bit, a 1 on the tone held and a 0 on the switched one
(43_tx_framer.md R208). -/
theorem sendBit_of_not_stuffDue (p : Params) {M : ModState} (h : M.stuffDue = false) :
    M.sendBit p = { M with
      consecutive_ones := if M.dataBit then M.consecutive_ones + 1 else 0
      phase_inc := if M.dataBit then M.phase_inc else (M.switchTone p).phase_inc
      bit_mask := M.bit_mask <<< 1 } := by
  obtain ⟨hd, -⟩ | ⟨-, hbit, e⟩ | ⟨-, hbit, e⟩ := sendBit_cases p M
  · simp [h] at hd
  · simp [e, hbit]
  · rw [e, hbit]; rfl

theorem stuffDue_of_stuffing_disabled {M : ModState} (h : M.bit_stuff_enabled = false) : M.stuffDue = false := by
  rw [ModState.stuffDue, h, Bool.false_and]

/-! ## The fetch -/

/-- Settles O35: the fetch enables stuffing by whether the byte is a control byte, and no stuffed 0 is due while
stuffing is disabled. -/
theorem controlBytesAreSentUnstuffed : Obligations.ControlBytesAreSentUnstuffed := by
  refine ⟨?control, ?plain, ?unstuffed⟩
  case control =>
    intro M b f hb
    have hesc : b ≠ 0x1B := by rintro rfl; exact absurd hb (by decide)
    rw [fetch_plain M hesc, (isControl_iff b).2 hb]
    rfl
  case plain =>
    intro M b f hflag habort hesc
    have hctl : isControl b = false :=
      Bool.eq_false_iff.2 fun h => ((isControl_iff b).1 h).elim hflag habort
    rw [fetch_plain M hesc, hctl]
    rfl
  case unstuffed =>
    intro p M hst
    rw [sendBit_of_not_stuffDue p (stuffDue_of_stuffing_disabled hst)]
    exact ⟨rfl, rfl, hst⟩

/-! ## The ticks that start a slot -/

/-- Everything a tick that starts a slot can do: with no byte to send it stops, with one it sends the line bit. -/
theorem txTick_slot_start_cases (p : Params) {M : ModState} (f : List Byte) (hs : M.sending = true)
    (hc : M.sample_countdown = 0) :
    (∃ M' f', ready M f = (false, M', f') ∧ txTick p M f = (idleResponse p, M', f')) ∨
    (∃ M' f', ready M f = (true, M', f') ∧
      let d := ddsStep { M'.sendBit p with sample_countdown := p.spbTx }
      txTick p M f = (d.1, d.2, f')) := by
  simpa [hs, hc] using txTick_cases p M f

/-- A tick that starts a slot with no byte to send stops the modulator and answers the idle sample. -/
theorem exec_txTick_of_not_ready {s : State} {M : ModState} {f : List Byte} (hs : s.S.M.sending = true)
    (hc : s.S.M.sample_countdown = 0) (hr : ready s.S.M s.S.TXF = (false, M, f)) :
    exec .txTick s = .next (s.answer (s.S.withTx M f) (idleResponse s.params)) := by
  obtain ⟨M', f', hr', e⟩ | ⟨M', f', hr', -⟩ := txTick_slot_start_cases s.params s.S.TXF hs hc
  · cases hr.symm.trans hr'
    rw [exec_txTick, e]
  · cases hr.symm.trans hr'

/-- A tick that starts a slot with a byte to send puts its line bit on the line, reloads the countdown, and takes the
DDS step. -/
theorem exec_txTick_of_ready {s : State} {M : ModState} {f : List Byte} (hs : s.S.M.sending = true)
    (hc : s.S.M.sample_countdown = 0) (hr : ready s.S.M s.S.TXF = (true, M, f)) :
    let d := ddsStep { M.sendBit s.params with sample_countdown := s.params.spbTx }
    exec .txTick s = .next (s.answer (s.S.withTx d.2 f) d.1) := by
  obtain ⟨M', f', hr', -⟩ | ⟨M', f', hr', e⟩ := txTick_slot_start_cases s.params s.S.TXF hs hc
  · cases hr.symm.trans hr'
  · cases hr.symm.trans hr'
    rw [exec_txTick, e]

/-- A tick takes bytes only in the fetch of a slot start. -/
theorem fetching_of_txTick_fifo_ne {p : Params} {M : ModState} {f : List Byte} (h : (txTick p M f).2.2 ≠ f) :
    M.sending = true ∧ M.sample_countdown = 0 ∧ M.bit_mask = 0 := by
  obtain ⟨-, e⟩ | ⟨-, -, e⟩ | ⟨hs, hc, M', f', hr, -⟩ | ⟨hs, hc, M', f', hr, e⟩ := txTick_cases p M f
  · simp [e] at h
  · simp [e] at h
  · exact ⟨hs, hc, (ready_false hr).1⟩
  · obtain ⟨-, -, rfl⟩ | ⟨hm, -⟩ := ready_true hr
    · simp [e] at h
    · exact ⟨hs, hc, hm⟩

/-- Settles O33: a byte leaves only by a fetch, and the fetch on an empty FIFO clears `sending` alone. -/
theorem underrunStopsTheModulator : Obligations.UnderrunStopsTheModulator := by
  constructor
  · intro s t h hne
    rw [exec_txTick] at h
    cases h
    exact fetching_of_txTick_fifo_ne hne
  · intro s hs hc hm hf
    have hr : ready s.S.M s.S.TXF = (false, { s.S.M with sending := false }, s.S.TXF) := by
      rw [ready_cases, if_pos hm, hf, fetch_nil]
    exact exec_txTick_of_not_ready hs hc hr

/-- Settles O36. -/
theorem stuffedSlotSendsAZero : Obligations.StuffedSlotSendsAZero := by
  intro s M f hs hc hr hst hones
  have hslot := exec_txTick_of_ready hs hc hr
  rw [sendBit_of_stuffDue s.params ((stuffDue_iff M).2 ⟨hst, hones⟩)] at hslot
  exact ⟨_, hslot⟩

/-- Settles O37. -/
theorem dataSlotSendsTheMaskedBit : Obligations.DataSlotSendsTheMaskedBit := by
  intro s M f hs hc hr hnot
  have hdue : M.stuffDue = false := Bool.eq_false_iff.2 (mt (stuffDue_iff M).1 hnot)
  have hslot := exec_txTick_of_ready hs hc hr
  rw [sendBit_of_not_stuffDue s.params hdue] at hslot
  simp only [dataBit_iff] at hslot
  exact ⟨_, hslot⟩

end Sys2Proof.Machine
end

section
/-! The phase of `TX_TICK`: the slot work leaves the accumulator alone, and an active tick then takes one DDS step. -/

namespace Sys2Proof.Machine

/-! ## The DDS step -/

@[simp] theorem ddsStep_sending (M : ModState) : (ddsStep M).2.sending = M.sending := rfl

@[simp] theorem ddsStep_phase_inc (M : ModState) : (ddsStep M).2.phase_inc = M.phase_inc := rfl

/-- The nine bits of the accumulator wrap at the length of the sine table (44_tx_dds.md R230). -/
theorem ddsStep_phase_acc_toNat (M : ModState) :
    (ddsStep M).2.phase_acc.toNat = (M.phase_acc.toNat + M.phase_inc.toNat) % 512 :=
  BitVec.toNat_add _ _

/-! ## The tick, by whether the modulator is active after it -/

theorem ready_false_keeps {M M' : ModState} {f f' : List Byte} (h : ready M f = (false, M', f')) :
    M'.sending = false ∧ M'.phase_acc = M.phase_acc := by
  obtain ⟨-, -, ⟨-, rfl⟩ | ⟨-, rfl⟩⟩ := ready_false h <;> exact ⟨rfl, rfl⟩

theorem ready_true_keeps {M M' : ModState} {f f' : List Byte} (h : ready M f = (true, M', f')) :
    M'.sending = M.sending ∧ M'.phase_acc = M.phase_acc := by
  obtain ⟨-, rfl, -⟩ | ⟨-, c, stuff, rfl, -⟩ := ready_true h <;> exact ⟨rfl, rfl⟩

/-- A tick either leaves the modulator idle, with the phase it had, or is the DDS step of an active modulator whose
phase the slot work has not touched. -/
theorem txTick_idle_or_ddsStep (p : Params) (M : ModState) (f : List Byte) :
    ∃ M' f', M'.phase_acc = M.phase_acc ∧
      ((M'.sending = false ∧ txTick p M f = (idleResponse p, M', f')) ∨
       (M'.sending = true ∧ txTick p M f = ((ddsStep M').1, (ddsStep M').2, f'))) := by
  obtain ⟨hs, e⟩ | ⟨hs, -, e⟩ | ⟨-, -, M', f', hr, e⟩ | ⟨hs, -, M', f', hr, e⟩ := txTick_cases p M f
  · exact ⟨M, f, rfl, .inl ⟨hs, e⟩⟩
  · exact ⟨M, f, rfl, .inr ⟨hs, e⟩⟩
  · obtain ⟨hidle, hacc⟩ := ready_false_keeps hr
    exact ⟨M', f', hacc, .inl ⟨hidle, e⟩⟩
  · obtain ⟨hsend, hacc⟩ := ready_true_keeps hr
    obtain ⟨-, -, hbitSend, hbitAcc⟩ := sendBit_keeps p M'
    exact ⟨{ M'.sendBit p with sample_countdown := p.spbTx }, f', hbitAcc.trans hacc,
      .inr ⟨hbitSend.trans (hsend.trans hs), e⟩⟩

/-- Settles O39: an idle outcome keeps the phase, and the DDS step of an active one adds the increment it leaves in
force. -/
theorem activeTickAdvancesThePhase : Obligations.ActiveTickAdvancesThePhase := by
  intro s
  refine ⟨_, exec_txTick s, ?_⟩
  rw [State.answer_S, Block.withTx_M]
  obtain ⟨M', f', hacc, ⟨hidle, e⟩ | ⟨hactive, e⟩⟩ := txTick_idle_or_ddsStep s.params s.S.M s.S.TXF <;> rw [e]
  · simp [hidle, hacc]
  · simp [hactive, ddsStep_phase_acc_toNat, hacc]

end Sys2Proof.Machine
end

section
/-! The event word: its two fields, and the decoder as the inverse of the encoder. -/

namespace Sys2Proof.Machine

/-- Every operation lies in its row of the table, with its two fields read back (30_encoding.md R100, R101). -/
theorem tableMatch_statement (i : Instr) : Laws.TableMatch.Statement i :=
  match i with
  | .nop => Laws.TableMatch.nop
  | .init => Laws.TableMatch.init
  | .rxSample arg => Laws.TableMatch.rxSample arg
  | .txTick => Laws.TableMatch.txTick
  | .txPush b => Laws.TableMatch.txPush b
  | .txStart => Laws.TableMatch.txStart
  | .rxPop => Laws.TableMatch.rxPop
  | .rdStatus => Laws.TableMatch.rdStatus

@[simp] theorem opOf_encode (i : Instr) : opOf (encode i) = opcode i := (tableMatch_statement i).2.1

@[simp] theorem argOf_encode (i : Instr) : argOf (encode i) = operand i := (tableMatch_statement i).2.2.1

/-- An event word is its opcode and its operand, in that order. -/
theorem opOf_append_argOf (w : EventWord) : opOf w ++ argOf w = w := by
  refine BitVec.eq_of_getLsbD_eq fun i hi => ?_
  rw [BitVec.getLsbD_append, opOf, argOf, BitVec.getLsbD_extractLsb', BitVec.getLsbD_extractLsb']
  split
  · simp [*]
  · rw [decide_eq_true (by omega), Nat.add_sub_cancel' (by omega), Bool.true_and]

/-- Clearing the operand bits leaves the opcode. -/
theorem and_opcodeMask (w : EventWord) : w &&& 0xF00 = opOf w ++ (0 : Byte) := by
  have hmask : (0xF00 : EventWord) = BitVec.allOnes 4 ++ (0 : Byte) := by decide
  refine BitVec.eq_of_getLsbD_eq fun i hi => ?_
  rw [hmask, BitVec.getLsbD_and, BitVec.getLsbD_append, BitVec.getLsbD_append, opOf, BitVec.getLsbD_extractLsb']
  split
  · simp
  · rw [BitVec.getLsbD_allOnes, Nat.add_sub_cancel' (by omega), Bool.and_comm]
theorem opOf_toNat (w : EventWord) : (opOf w).toNat = w.toNat / 256 := by
  rw [opOf, BitVec.extractLsb'_toNat, Nat.shiftRight_eq_div_pow]
  have := w.isLt
  omega

/-- The operation takes the operand byte (30_encoding.md R102). -/
def takesOperand : Instr → Bool
  | .rxSample _ | .txPush _ => true
  | .nop | .init | .txTick | .txStart | .rxPop | .rdStatus => false

theorem opcode_lt (i : Instr) : (opcode i).toNat < 8 := by
  cases i <;> simp [opcode]

/-- Everything the decoder can answer: an operation with the word's opcode and, where it takes one, the word's operand;
or the rejection of an opcode of 8 and above (30_encoding.md R101 to R103). -/
theorem decode_cases (w : EventWord) :
    (∃ i, decode w = .ok i ∧ opOf w = opcode i ∧ operand i = if takesOperand i then argOf w else 0) ∨
    (8 ≤ (opOf w).toNat ∧ decode w = .error (.reservedOpcode (opOf w))) := by
  unfold decode
  split
  case h_9 => exact .inr ⟨by grind, rfl⟩
  all_goals
    rename_i h
    exact .inl ⟨_, rfl, BitVec.eq_of_toNat_eq h, rfl⟩

theorem decode_encode (i : Instr) : decode (encode i) = .ok i := by
  cases i <;> simp [decode, opcode, operand]

/-- An operation that a word decodes to is encoded as the word, with the operand bits cleared where it takes none. -/
theorem encode_of_decode {w : EventWord} {i : Instr} (h : decode w = .ok i) :
    encode i = if takesOperand i then w else w &&& 0xF00 := by
  obtain ⟨j, hj, hop, harg⟩ | ⟨-, he⟩ := decode_cases w
  · cases hj.symm.trans h
    rw [encode, ← hop, harg]
    split
    · exact opOf_append_argOf w
    · exact (and_opcodeMask w).symm
  · cases he.symm.trans h

/-- Exactly the words with an opcode of 8 and above are rejected (30_encoding.md R103). -/
theorem le_toNat_iff_decode_error (w : EventWord) : 0x800 ≤ w.toNat ↔ ∃ r, decode w = .error r := by
  have hop := opOf_toNat w
  obtain ⟨i, hi, hopi, -⟩ | ⟨h8, he⟩ := decode_cases w
  · have h7 := opcode_lt i
    rw [hopi] at hop
    simp only [hi, reduceCtorEq, exists_false, iff_false]
    omega
  · simp only [he, Except.error.injEq, exists_eq', iff_true]
    omega

/-- Settles O1. -/
theorem encodeThenDecodeIsIdentity : Obligations.EncodeThenDecodeIsIdentity := by
  refine ⟨fun i _ => decode_encode i, fun w i h => ?_, le_toNat_iff_decode_error⟩
  rw [encode_of_decode h]
  cases i <;> rfl

/-- Every mask of the table keeps the opcode alone. -/
theorem covers_of_mem_opcodeTable {r : TableRow} (hr : r ∈ opcodeTable) (w : EventWord) :
    r.covers w = (opOf w ++ (0 : Byte) == r.pattern) := by
  have hmask : r.mask = 0xF00 := by revert r; decide
  rw [TableRow.covers, hmask, and_opcodeMask]

theorem rows_of_opcode (i : Instr) :
    (opcodeTable.filter (opcode i ++ (0 : Byte) == ·.pattern)).map (·.mnemonic) = [i.mnemonic] := by
  cases i <;> simp only [opcode, Instr.mnemonic] <;> decide

theorem rows_of_reserved : ∀ op : BitVec 4, 8 ≤ op.toNat →
    (opcodeTable.filter (op ++ (0 : Byte) == ·.pattern)).map (·.mnemonic) = [] := by
  decide

/-- Settles O2: the rows that cover a word are those of its opcode. -/
theorem tableRowsMatchTheDecoder : Obligations.TableRowsMatchTheDecoder := by
  intro w
  rw [List.filter_congr fun r hr => covers_of_mem_opcodeTable hr w]
  obtain ⟨i, hi, hop, -⟩ | ⟨h8, he⟩ := decode_cases w
  · rw [hi, hop]
    exact rows_of_opcode i
  · rw [he]
    exact rows_of_reserved _ h8

/-- Settles O3. -/
theorem decodesTheWordsOfTheSpec : Obligations.DecodesTheWordsOfTheSpec := by
  unfold Obligations.DecodesTheWordsOfTheSpec
  decide

end Sys2Proof.Machine
end

section
/-! The ring of `CAP + 1` cells realises the FIFO (20_memory.md R77). -/

namespace Sys2Proof.Machine

/-- An index that runs past the end of a ring at most once wraps by one subtraction. -/
theorem mod_of_lt_two_mul {a n : Nat} (h : a < 2 * n) : a % n = if a < n then a else a - n := by
  split
  · exact Nat.mod_eq_of_lt ‹_›
  · rw [Nat.mod_eq_sub_mod (by omega), Nat.mod_eq_of_lt (by omega)]

namespace Ring

theorem wf_iff (r : Ring) : r.wf = true ↔ r.head < r.size ∧ r.tail < r.size := by
  simp [wf]

theorem empty_iff (r : Ring) : r.empty = true ↔ r.head = r.tail := beq_iff_eq

theorem full_iff (r : Ring) : r.full = true ↔ (r.tail + 1) % r.size = r.head := beq_iff_eq

@[simp] theorem push_size (r : Ring) (b : Byte) : (r.push b).size = r.size := List.length_set
@[simp] theorem push_head (r : Ring) (b : Byte) : (r.push b).head = r.head := rfl
@[simp] theorem push_tail (r : Ring) (b : Byte) : (r.push b).tail = (r.tail + 1) % r.size := rfl
@[simp] theorem drop_size (r : Ring) : r.drop.size = r.size := rfl
@[simp] theorem drop_head (r : Ring) : r.drop.head = (r.head + 1) % r.size := rfl
@[simp] theorem drop_tail (r : Ring) : r.drop.tail = r.tail := rfl

/-- The byte `k` places after the oldest. -/
def cell (r : Ring) (k : Nat) : Byte := r.cells.getD ((r.head + k) % r.size) 0

/-- The indices of a well-formed ring, and the number of bytes between them. -/
theorem len_eq {r : Ring} (h : r.wf = true) :
    r.len = if r.head ≤ r.tail then r.tail - r.head else r.tail + r.size - r.head := by
  obtain ⟨hh, ht⟩ := (wf_iff r).1 h
  rw [len, mod_of_lt_two_mul (by omega)]
  split <;> split <;> omega

theorem succ_mod_eq {r : Ring} {i : Nat} (h : i < r.size) : (i + 1) % r.size = if i + 1 = r.size then 0 else i + 1 := by
  rw [mod_of_lt_two_mul (by omega)]
  split <;> split <;> omega

/-- In a ring with cells every place holds a byte, so the sequence is its cells in order. -/
theorem contents_eq {r : Ring} (h : r.wf = true) : r.contents = (List.range r.len).map r.cell := by
  have hsize : 0 < r.size := by have := ((wf_iff r).1 h).1; omega
  rw [contents, ← List.filterMap_eq_map]
  congr 1
  funext k
  have hk : (r.head + k) % r.size < r.cells.length := Nat.mod_lt _ hsize
  simp [cell, List.getD_eq_getElem?_getD, List.getElem?_eq_getElem hk]

theorem contents_length {r : Ring} (h : r.wf = true) : r.contents.length = r.len := by
  simp [contents_eq h]

theorem push_wf {r : Ring} (h : r.wf = true) (b : Byte) : (r.push b).wf = true := by
  obtain ⟨hh, -⟩ := (wf_iff r).1 h
  simp only [wf_iff, push_size, push_head, push_tail]
  exact ⟨hh, Nat.mod_lt _ (by omega)⟩

theorem drop_wf {r : Ring} (h : r.wf = true) : r.drop.wf = true := by
  obtain ⟨hh, ht⟩ := (wf_iff r).1 h
  simp only [wf_iff, drop_size, drop_head, drop_tail]
  exact ⟨Nat.mod_lt _ (by omega), ht⟩

/-- A ring is full with one cell fewer than it has. -/
theorem full_iff_len {r : Ring} (h : r.wf = true) : r.full = true ↔ r.len = r.size - 1 := by
  obtain ⟨hh, ht⟩ := (wf_iff r).1 h
  rw [full_iff, succ_mod_eq ht, len_eq h]
  split <;> split <;> omega

theorem empty_iff_len {r : Ring} (h : r.wf = true) : r.empty = true ↔ r.len = 0 := by
  obtain ⟨hh, ht⟩ := (wf_iff r).1 h
  rw [empty_iff, len_eq h]
  split <;> omega

theorem push_len {r : Ring} (h : r.wf = true) (hfull : r.full = false) (b : Byte) : (r.push b).len = r.len + 1 := by
  obtain ⟨hh, ht⟩ := (wf_iff r).1 h
  have hroom : ¬ r.len = r.size - 1 := by rw [← full_iff_len h, hfull]; decide
  rw [len_eq h] at hroom ⊢
  rw [len_eq (push_wf h b), push_head, push_tail, push_size, succ_mod_eq ht]
  split_ifs at hroom ⊢ <;> omega

theorem drop_len {r : Ring} (h : r.wf = true) (hempty : r.empty = false) : r.len = r.drop.len + 1 := by
  obtain ⟨hh, ht⟩ := (wf_iff r).1 h
  have hne : ¬ r.head = r.tail := by rw [← empty_iff, hempty]; decide
  rw [len_eq h, len_eq (drop_wf h), drop_head, drop_tail, drop_size, succ_mod_eq hh]
  split_ifs <;> omega

/-- The place of the newest byte is the producer's index. -/
theorem head_add_len {r : Ring} (h : r.wf = true) : (r.head + r.len) % r.size = r.tail := by
  obtain ⟨hh, ht⟩ := (wf_iff r).1 h
  rw [len_eq h, mod_of_lt_two_mul (by split <;> omega)]
  split_ifs <;> omega

/-- No stored byte lies at the producer's index. -/
theorem place_ne_tail {r : Ring} (h : r.wf = true) {k : Nat} (hk : k < r.len) : (r.head + k) % r.size ≠ r.tail := by
  obtain ⟨hh, ht⟩ := (wf_iff r).1 h
  rw [len_eq h] at hk
  rw [mod_of_lt_two_mul (by split at hk <;> omega)]
  split_ifs at hk ⊢ <;> omega

/-- A push keeps the stored bytes in their places. -/
theorem push_cell_of_lt {r : Ring} (h : r.wf = true) (b : Byte) {k : Nat} (hk : k < r.len) :
    (r.push b).cell k = r.cell k := by
  rw [cell, push_head, push_size, cell, push]
  simp [List.getD_eq_getElem?_getD, List.getElem?_set_ne (place_ne_tail h hk).symm]

/-- A push puts its byte behind the stored ones. -/
theorem push_cell_len {r : Ring} (h : r.wf = true) (b : Byte) : (r.push b).cell r.len = b := by
  have ht : r.tail < r.cells.length := ((wf_iff r).1 h).2
  rw [cell, push_head, push_size, head_add_len h, push]
  simp [List.getD_eq_getElem?_getD, ht]

/-- A pop moves every place one on. -/
theorem drop_cell (r : Ring) (k : Nat) : r.drop.cell k = r.cell (k + 1) := by
  have hplace : ((r.head + 1) % r.size + k) % r.size = (r.head + (k + 1)) % r.size := by
    rw [Nat.mod_add_mod, Nat.add_assoc, Nat.add_comm 1 k]
  rw [cell, drop_head, drop_size, hplace]; rfl

theorem push_contents {r : Ring} (h : r.wf = true) (hfull : r.full = false) (b : Byte) :
    (r.push b).contents = r.contents ++ [b] := by
  rw [contents_eq (push_wf h b), contents_eq h, push_len h hfull, List.range_succ, List.map_append]
  congr 1
  · exact List.map_congr_left fun k hk => push_cell_of_lt h b (List.mem_range.1 hk)
  · simp [push_cell_len h]

/-- The oldest byte of a ring that is not empty, and the rest. -/
theorem contents_cons {r : Ring} (h : r.wf = true) (hempty : r.empty = false) :
    r.contents = r.cell 0 :: r.drop.contents := by
  rw [contents_eq h, contents_eq (drop_wf h), drop_len h hempty, List.range_succ_eq_map, List.map_cons, List.map_map]
  congr 1
  exact List.map_congr_left fun k _ => (drop_cell r k).symm

theorem front_eq {r : Ring} (h : r.wf = true) : r.front = some (r.cell 0) := by
  have hh : r.head < r.cells.length := ((wf_iff r).1 h).1
  simp [front, cell, size, Nat.mod_eq_of_lt hh, hh]

end Ring

/-- Settles O59: the places of the stored bytes, one after the other around the ring, are the sequence. -/
theorem ringRefinesTheFifo : Obligations.RingRefinesTheFifo := by
  intro r h
  have hlen := Ring.contents_length h
  refine ⟨?empty, ?full, hlen.symm, ?push, ?pop⟩
  case empty => rw [Bool.eq_iff_iff, Ring.empty_iff_len h, fifoEmpty_iff, ← List.length_eq_zero_iff, hlen]
  case full => rw [Bool.eq_iff_iff, Ring.full_iff_len h, fifoFull_iff, hlen]
  case push => exact fun b hfull => ⟨Ring.push_wf h b, Ring.push_contents h hfull b⟩
  case pop =>
    intro hempty
    exact ⟨r.cell 0, Ring.front_eq h, Ring.drop_wf h, by rw [Ring.contents_cons h hempty, fifoPop_cons]⟩

end Sys2Proof.Machine
end

section
/-! What each operation can do to the block, inverted once, and who may write what. -/

namespace Sys2Proof.Machine

/-! ## The host operations with two outcomes -/

theorem exec_txPush_cases {b : Byte} {s t : State} (h : exec (.txPush b) s = .next t) :
    (s.S.TXF.length = s.params.txFifoCap ∧ t = s.answer s.S Response.rejected) ∨
    (s.S.TXF.length ≠ s.params.txFifoCap ∧ t = s.answer (s.S.withTXF (s.S.TXF ++ [b])) Response.done) := by
  by_cases hf : s.S.TXF.length = s.params.txFifoCap
  · rw [exec_txPush_full b hf] at h
    cases h
    exact .inl ⟨hf, rfl⟩
  · rw [exec_txPush_room b hf] at h
    cases h
    exact .inr ⟨hf, rfl⟩

theorem exec_rxPop_cases {s t : State} (h : exec .rxPop s = .next t) :
    (s.S.RXF = [] ∧ t = s.answer s.S Response.rejected) ∨
    ∃ b rest, s.S.RXF = b :: rest ∧ t = s.answer (s.S.withRXF rest) { ok := true, data := b } := by
  cases hf : s.S.RXF with
  | nil =>
    rw [exec_rxPop_empty hf] at h
    cases h
    exact .inl ⟨rfl, rfl⟩
  | cons b rest =>
    rw [exec_rxPop_cons hf] at h
    cases h
    exact .inr ⟨b, rest, rfl, rfl⟩

theorem exec_txStart_active {s : State} (h : s.S.M.sending = true) :
    exec .txStart s = .next (s.answer s.S Response.done) := by
  rw [exec_txStart, h]; rfl

theorem exec_txStart_idle {s : State} (h : s.S.M.sending = false) :
    exec .txStart s = .next (s.answer (s.S.withM (s.S.M.start s.params)) Response.done) := by
  rw [exec_txStart, h]; rfl

theorem exec_txStart_cases {s t : State} (h : exec .txStart s = .next t) :
    (s.S.M.sending = true ∧ t = s.answer s.S Response.done) ∨
    (s.S.M.sending = false ∧ t = s.answer (s.S.withM (s.S.M.start s.params)) Response.done) := by
  cases hs : s.S.M.sending with
  | true =>
    rw [exec_txStart_active hs] at h
    cases h
    exact .inl ⟨rfl, rfl⟩
  | false =>
    rw [exec_txStart_idle hs] at h
    cases h
    exact .inr ⟨rfl, rfl⟩

/-- A completed sample writes the receiver's part of the block and answers `ok`. -/
theorem exec_rxSample_cases {arg : Byte} {s t : State} (h : exec (.rxSample arg) s = .next t) :
    ∃ b x y, let r := bitSync b (s.S.D.shiftTaps x y)
      let d := deframe s.params.rxFifoCap r.1 s.S.H s.S.RXF
      t = s.answer (s.S.withRx (s.S.DL.shift arg) r.2 d.1 d.2) Response.done := by
  rw [exec_rxSample] at h
  obtain ⟨x, y, -, -, rfl⟩ := execRxSample_cases h
  exact ⟨_, x, y, rfl⟩

/-! ## Owners -/

/-- No operation writes the parameters or the arrivals (10_state.md R56). -/
theorem exec_keeps_machine {i : Instr} {s t : State} (h : exec i s = .next t) :
    t.params = s.params ∧ t.inbox = s.inbox := by
  cases i with
  | rxSample arg => obtain ⟨b, x, y, rfl⟩ := exec_rxSample_cases h; exact ⟨rfl, rfl⟩
  | txPush b => obtain ⟨-, rfl⟩ | ⟨-, rfl⟩ := exec_txPush_cases h <;> exact ⟨rfl, rfl⟩
  | rxPop => obtain ⟨-, rfl⟩ | ⟨b, rest, -, rfl⟩ := exec_rxPop_cases h <;> exact ⟨rfl, rfl⟩
  | nop | init | txTick | txStart | rdStatus => cases h; exact ⟨rfl, rfl⟩

theorem exec_params {i : Instr} {s t : State} (h : exec i s = .next t) : t.params = s.params :=
  (exec_keeps_machine h).1

theorem exec_keeps_receiver {i : Instr} {s t : State} (h : exec i s = .next t) (hrx : ∀ a, i ≠ .rxSample a)
    (hinit : i ≠ .init) : t.S.DL = s.S.DL ∧ t.S.D = s.S.D ∧ t.S.H = s.S.H := by
  cases i with
  | rxSample arg => exact absurd rfl (hrx arg)
  | init => exact absurd rfl hinit
  | txPush b => obtain ⟨-, rfl⟩ | ⟨-, rfl⟩ := exec_txPush_cases h <;> exact ⟨rfl, rfl, rfl⟩
  | rxPop => obtain ⟨-, rfl⟩ | ⟨b, rest, -, rfl⟩ := exec_rxPop_cases h <;> exact ⟨rfl, rfl, rfl⟩
  | txStart => obtain ⟨-, rfl⟩ | ⟨-, rfl⟩ := exec_txStart_cases h <;> exact ⟨rfl, rfl, rfl⟩
  | nop | txTick | rdStatus => cases h; exact ⟨rfl, rfl, rfl⟩

theorem exec_keeps_modulator {i : Instr} {s t : State} (h : exec i s = .next t) (htick : i ≠ .txTick)
    (hstart : i ≠ .txStart) (hinit : i ≠ .init) : t.S.M = s.S.M := by
  cases i with
  | init => exact absurd rfl hinit
  | txTick => exact absurd rfl htick
  | txStart => exact absurd rfl hstart
  | rxSample arg => obtain ⟨b, x, y, rfl⟩ := exec_rxSample_cases h; rfl
  | txPush b => obtain ⟨-, rfl⟩ | ⟨-, rfl⟩ := exec_txPush_cases h <;> rfl
  | rxPop => obtain ⟨-, rfl⟩ | ⟨b, rest, -, rfl⟩ := exec_rxPop_cases h <;> rfl
  | nop | rdStatus => cases h; rfl

theorem exec_keeps_rxFifo {i : Instr} {s t : State} (h : exec i s = .next t) (hrx : ∀ a, i ≠ .rxSample a)
    (hpop : i ≠ .rxPop) (hinit : i ≠ .init) : t.S.RXF = s.S.RXF := by
  cases i with
  | rxSample arg => exact absurd rfl (hrx arg)
  | init => exact absurd rfl hinit
  | rxPop => exact absurd rfl hpop
  | txPush b => obtain ⟨-, rfl⟩ | ⟨-, rfl⟩ := exec_txPush_cases h <;> rfl
  | txStart => obtain ⟨-, rfl⟩ | ⟨-, rfl⟩ := exec_txStart_cases h <;> rfl
  | nop | txTick | rdStatus => cases h; rfl

theorem exec_keeps_txFifo {i : Instr} {s t : State} (h : exec i s = .next t) (htick : i ≠ .txTick)
    (hpush : ∀ b, i ≠ .txPush b) (hinit : i ≠ .init) : t.S.TXF = s.S.TXF := by
  cases i with
  | init => exact absurd rfl hinit
  | txTick => exact absurd rfl htick
  | txPush b => exact absurd rfl (hpush b)
  | rxSample arg => obtain ⟨b, x, y, rfl⟩ := exec_rxSample_cases h; rfl
  | rxPop => obtain ⟨-, rfl⟩ | ⟨b, rest, -, rfl⟩ := exec_rxPop_cases h <;> rfl
  | txStart => obtain ⟨-, rfl⟩ | ⟨-, rfl⟩ := exec_txStart_cases h <;> rfl
  | nop | rdStatus => cases h; rfl

/-- Settles O11. -/
theorem onlyOwnersWriteTheirState : Obligations.OnlyOwnersWriteTheirState := fun _ _ _ h =>
  ⟨exec_keeps_receiver h, exec_keeps_modulator h, exec_keeps_rxFifo h, exec_keeps_txFifo h, exec_keeps_machine h⟩

/-- The state with other values in the receiver's registers. -/
def withReceiver (s : State) (dl : DelayLine) (d : DemodState) (h : HdlcRxState) : State :=
  { s with S := { s.S with DL := dl, D := d, H := h } }

/-- Settles O12: no operation but `RX_SAMPLE` and `INIT` reads or writes the receiver's registers. -/
theorem receiverRegistersAreInvisibleToOthers : Obligations.ReceiverRegistersAreInvisibleToOthers := by
  intro i s t dl d hr hrx hinit h
  show exec i (withReceiver s dl d hr) = .next (withReceiver t dl d hr)
  cases i with
  | rxSample arg => exact absurd rfl (hrx arg)
  | init => exact absurd rfl hinit
  | txPush b =>
    obtain ⟨hf, rfl⟩ | ⟨hf, rfl⟩ := exec_txPush_cases h
    · exact exec_txPush_full (s := withReceiver s dl d hr) b hf
    · exact exec_txPush_room (s := withReceiver s dl d hr) b hf
  | rxPop =>
    obtain ⟨hf, rfl⟩ | ⟨b, rest, hf, rfl⟩ := exec_rxPop_cases h
    · exact exec_rxPop_empty (s := withReceiver s dl d hr) hf
    · exact exec_rxPop_cons (s := withReceiver s dl d hr) hf
  | txStart =>
    obtain ⟨hs, rfl⟩ | ⟨hs, rfl⟩ := exec_txStart_cases h
    · exact exec_txStart_active (s := withReceiver s dl d hr) hs
    · exact exec_txStart_idle (s := withReceiver s dl d hr) hs
  | nop | txTick | rdStatus => cases h; rfl

end Sys2Proof.Machine
end

section
/-! The two FIFOs along a run: what passes through them, and that neither loses what it stores. -/

namespace Sys2Proof.Machine

/-! ## One operation -/

/-- A sample appends to the RX FIFO, within its capacity. -/
theorem exec_rxSample_fifo {arg : Byte} {s t : State} (h : exec (.rxSample arg) s = .next t) :
    ∃ bs, t.S.RXF = s.S.RXF ++ bs ∧
      (s.S.RXF.length ≤ s.params.rxFifoCap → t.S.RXF.length ≤ s.params.rxFifoCap) := by
  obtain ⟨b, x, y, rfl⟩ := exec_rxSample_cases h
  obtain ⟨bs, hbs, hcap, -⟩ := deframe_fifo s.params.rxFifoCap (bitSync b (s.S.D.shiftTaps x y)).1 s.S.H s.S.RXF
  exact ⟨bs, hbs, by simpa [hbs] using hcap⟩

/-- One operation delivers what the RX FIFO held and took in, in order. -/
theorem exec_rxFifo_delivers {i : Instr} {s t : State} (hinit : i ≠ .init) (h : exec i s = .next t) :
    s.S.RXF ++ Event.rxPushed ⟨i, s, t⟩ = Event.rxPopped ⟨i, s, t⟩ ++ t.S.RXF := by
  cases i with
  | init => exact absurd rfl hinit
  | rxSample arg =>
    obtain ⟨bs, hbs, -⟩ := exec_rxSample_fifo h
    simp [Event.rxPushed, Event.rxPopped, hbs]
  | rxPop =>
    obtain ⟨hf, rfl⟩ | ⟨b, rest, hf, rfl⟩ := exec_rxPop_cases h
    · simp [Event.rxPushed, Event.rxPopped, Response.rejected, hf]
    · simp [Event.rxPushed, Event.rxPopped, hf]
  | nop | txTick | txPush | txStart | rdStatus =>
    simp [Event.rxPushed, Event.rxPopped, exec_keeps_rxFifo h]

/-- A tick fetches what stood before the bytes it leaves. -/
theorem exec_txTick_fetched {s t : State} (h : exec .txTick s = .next t) :
    s.S.TXF = Event.txFetched ⟨.txTick, s, t⟩ ++ t.S.TXF := by
  rw [exec_txTick] at h
  cases h
  obtain ⟨bs, hbs⟩ := txTick_fifo s.params s.S.M s.S.TXF
  simp only [Event.txFetched, State.answer_S, Block.withTx_TXF]
  generalize (txTick s.params s.S.M s.S.TXF).2.2 = rest at hbs
  simp [hbs]

/-- One operation delivers what the TX FIFO held and took in, in order. -/
theorem exec_txFifo_delivers {i : Instr} {s t : State} (hinit : i ≠ .init) (h : exec i s = .next t) :
    s.S.TXF ++ Event.txAccepted ⟨i, s, t⟩ = Event.txFetched ⟨i, s, t⟩ ++ t.S.TXF := by
  cases i with
  | init => exact absurd rfl hinit
  | txTick => simpa [Event.txAccepted] using exec_txTick_fetched h
  | txPush b =>
    obtain ⟨-, rfl⟩ | ⟨-, rfl⟩ := exec_txPush_cases h
    · simp [Event.txAccepted, Event.txFetched, Response.rejected]
    · simp [Event.txAccepted, Event.txFetched, Response.done]
  | nop | rxSample | rxPop | txStart | rdStatus =>
    simp [Event.txAccepted, Event.txFetched, exec_keeps_txFifo h]

/-! ## Runs -/

/-- What each operation delivers in order, a run delivers in order. -/
theorem run_delivers {fifo : State → List Byte} {pushed popped : Event → List Byte}
    (hstep : ∀ {i s t}, i ≠ Instr.init → exec i s = .next t →
      fifo s ++ pushed ⟨i, s, t⟩ = popped ⟨i, s, t⟩ ++ fifo t) :
    ∀ {is : List Instr} {s : State} {es : List Event}, .init ∉ is → run is s = some es →
      fifo s ++ es.flatMap pushed = es.flatMap popped ++ fifo (finish s es)
  | [], s, es, _, h => by cases h; simp
  | i :: is, s, es, hinit, h => by
    obtain ⟨t, rest, he, hr, rfl⟩ := run_cons_some h
    obtain ⟨hi, his⟩ := not_or.1 (mt List.mem_cons.2 hinit)
    have htail := run_delivers hstep his hr
    calc fifo s ++ (pushed ⟨i, s, t⟩ ++ rest.flatMap pushed)
        = (popped ⟨i, s, t⟩ ++ fifo t) ++ rest.flatMap pushed := by
          rw [← List.append_assoc, hstep (Ne.symm hi) he]
      _ = (popped ⟨i, s, t⟩ ++ rest.flatMap popped) ++ fifo (finish t rest) := by
          rw [List.append_assoc, htail, ← List.append_assoc]

/-- Settles O56, by the induction over the run for each FIFO. -/
theorem fifosDeliverInOrder : Obligations.FifosDeliverInOrder := fun _ _ _ hinit h =>
  ⟨run_delivers (fifo := (·.S.RXF)) exec_rxFifo_delivers hinit h,
    run_delivers (fifo := (·.S.TXF)) exec_txFifo_delivers hinit h⟩

/-- `f'` holds the bytes of `f` in their places, and no more than the capacity where `f` did. -/
def KeepsStored (cap : Nat) (f f' : List Byte) : Prop := f <+: f' ∧ (f.length ≤ cap → f'.length ≤ cap)

theorem KeepsStored.refl (cap : Nat) (f : List Byte) : KeepsStored cap f f := ⟨List.prefix_rfl, id⟩

theorem KeepsStored.trans {cap : Nat} {f g k : List Byte} (h1 : KeepsStored cap f g) (h2 : KeepsStored cap g k) :
    KeepsStored cap f k :=
  ⟨h1.1.trans h2.1, h2.2 ∘ h1.2⟩

/-- A full FIFO that keeps what it stores stays as it is. -/
theorem KeepsStored.eq_of_full {cap : Nat} {f f' : List Byte} (h : KeepsStored cap f f') (hfull : f.length = cap) :
    f' = f :=
  (h.1.eq_of_length_le (hfull ▸ h.2 hfull.le)).symm

/-- Without `RX_POP` the RX FIFO keeps what it stores. -/
theorem exec_keepsStored_rx {i : Instr} {s t : State} (hinit : i ≠ .init) (hpop : i ≠ .rxPop)
    (h : exec i s = .next t) : KeepsStored s.params.rxFifoCap s.S.RXF t.S.RXF := by
  by_cases hrx : ∃ a, i = .rxSample a
  · obtain ⟨a, rfl⟩ := hrx
    obtain ⟨bs, hbs, hcap⟩ := exec_rxSample_fifo h
    exact ⟨⟨bs, hbs.symm⟩, hcap⟩
  · rw [exec_keeps_rxFifo h (not_exists.1 hrx) hpop hinit]
    exact .refl _ _

/-- Without `TX_TICK` the TX FIFO keeps what it stores. -/
theorem exec_keepsStored_tx {i : Instr} {s t : State} (hinit : i ≠ .init) (htick : i ≠ .txTick)
    (h : exec i s = .next t) : KeepsStored s.params.txFifoCap s.S.TXF t.S.TXF := by
  by_cases hpush : ∃ b, i = .txPush b
  · obtain ⟨b, rfl⟩ := hpush
    obtain ⟨-, rfl⟩ | ⟨hroom, rfl⟩ := exec_txPush_cases h
    · exact .refl _ _
    · exact ⟨List.prefix_append _ _, fun hle => by simp; omega⟩
  · rw [exec_keeps_txFifo h htick (not_exists.1 hpush) hinit]
    exact .refl _ _

/-- What every operation but `INIT` and one more keeps stored, a run without those two keeps stored. -/
theorem run_keepsStored {cap : Params → Nat} {fifo : State → List Byte} {drains : Instr}
    (hstep : ∀ {i s t}, i ≠ Instr.init → i ≠ drains → exec i s = .next t →
      KeepsStored (cap s.params) (fifo s) (fifo t)) :
    ∀ {is : List Instr} {s : State} {es : List Event}, .init ∉ is → drains ∉ is → run is s = some es →
      KeepsStored (cap s.params) (fifo s) (fifo (finish s es))
  | [], s, es, _, _, h => by cases h; exact .refl _ _
  | i :: is, s, es, hinit, hdrains, h => by
    obtain ⟨t, rest, he, hr, rfl⟩ := run_cons_some h
    obtain ⟨hi, his⟩ := not_or.1 (mt List.mem_cons.2 hinit)
    obtain ⟨hd, hds⟩ := not_or.1 (mt List.mem_cons.2 hdrains)
    have htail := run_keepsStored hstep his hds hr
    rw [exec_params he] at htail
    exact (hstep (Ne.symm hi) (Ne.symm hd) he).trans htail

/-- Settles O57, by the induction over the run for each FIFO. -/
theorem overflowKeepsWhatIsStored : Obligations.OverflowKeepsWhatIsStored := by
  constructor
  · intro is s es hinit hpop h hle
    have hkeep := run_keepsStored (cap := (·.rxFifoCap)) (fifo := (·.S.RXF)) exec_keepsStored_rx hinit hpop h
    exact ⟨hkeep.1, hkeep.2 hle, hkeep.eq_of_full⟩
  · intro is s es hinit htick h hle
    have hkeep := run_keepsStored (cap := (·.txFifoCap)) (fifo := (·.S.TXF)) exec_keepsStored_tx hinit htick h
    exact ⟨hkeep.1, hkeep.2 hle, hkeep.eq_of_full⟩

end Sys2Proof.Machine
end

section
/-! The step: the arrival it executes, and when it stops. -/

namespace Sys2Proof.Machine

theorem step_of_arrival {s : State} {a : Arrival} {rest : List Arrival} {i : Instr} (hv : s.params.valid = true)
    (hin : s.inbox = a :: rest) (hd : decode a.word = .ok i) : step s = exec i (s.taken rest) := by
  simp [step, hv, hin, hd]

theorem step_of_no_arrival {s : State} (hv : s.params.valid = true) (hin : s.inbox = []) : step s = .next s.quiet := by
  simp [step, hv, hin]

theorem step_of_reserved {s : State} {a : Arrival} {rest : List Arrival} {op : BitVec 4} (hv : s.params.valid = true)
    (hin : s.inbox = a :: rest) (hd : decode a.word = .error (.reservedOpcode op)) :
    step s = .refused (.reservedEvent op) := by
  simp [step, hv, hin, hd]

theorem step_of_broken {s : State} (hv : s.params.valid = false) : step s = .refused .badParameters := by
  simp [step, hv]

/-- Settles O4. -/
theorem stepExecutesTheOldestArrival : Obligations.StepExecutesTheOldestArrival :=
  fun _ _ _ _ _ hv hin hd => step_of_arrival hv hin hd

/-- Settles O5. -/
theorem stepWithoutArrivalChangesNothing : Obligations.StepWithoutArrivalChangesNothing :=
  fun s hv hin => ⟨s.quiet, step_of_no_arrival hv hin, rfl, rfl, hin, rfl⟩

/-- Settles O6. -/
theorem reservedEventIsRefused : Obligations.ReservedEventIsRefused := by
  intro s a rest hv hin hres
  obtain ⟨r, hr⟩ := (le_toNat_iff_decode_error a.word).1 hres
  obtain ⟨i, hi, -⟩ | ⟨-, he⟩ := decode_cases a.word
  · cases hi.symm.trans hr
  · exact step_of_reserved hv hin he

/-- No operation is refused. -/
theorem exec_ne_refused (i : Instr) (s : State) (r : Refusal) : exec i s ≠ .refused r := by
  intro h
  cases i with
  | rxSample arg =>
    rw [exec_rxSample, execRxSample] at h
    split at h <;> cases h
  | txPush b =>
    by_cases hf : s.S.TXF.length = s.params.txFifoCap
    · rw [exec_txPush_full b hf] at h; cases h
    · rw [exec_txPush_room b hf] at h; cases h
  | rxPop =>
    cases hf : s.S.RXF with
    | nil => rw [exec_rxPop_empty hf] at h; cases h
    | cons b rest => rw [exec_rxPop_cons hf] at h; cases h
  | nop | init | txTick | txStart | rdStatus => cases h

/-- At valid parameters no step gives bad parameters as its reason. -/
theorem step_ne_badParameters {s : State} (hv : s.params.valid = true) : step s ≠ .refused .badParameters := by
  cases hin : s.inbox with
  | nil => rw [step_of_no_arrival hv hin]; simp
  | cons a rest =>
    obtain ⟨i, hi, -⟩ | ⟨-, he⟩ := decode_cases a.word
    · rw [step_of_arrival hv hin hi]
      exact exec_ne_refused i _ _
    · rw [step_of_reserved hv hin he]; simp

theorem step_badParameters_iff (s : State) : step s = .refused .badParameters ↔ s.params.valid = false := by
  refine ⟨fun h => ?_, step_of_broken⟩
  cases hv : s.params.valid
  · rfl
  · exact absurd h (step_ne_badParameters hv)

/-- The checks of 00_scope.md R8 with the constants written out. -/
theorem valid_iff (p : Params) : p.valid = true ↔
    p.dacSampleRate % 1200 = 0 ∧ 1 ≤ p.dacSampleRate / 1200 ∧ p.markIncNat ≠ p.spaceIncNat ∧
    0 < p.markIncNat ∧ p.markIncNat < 512 ∧ 0 < p.spaceIncNat ∧ p.spaceIncNat < 512 ∧
    2 ≤ p.rxFifoCap ∧ 2 ≤ p.txFifoCap := by
  have hc : constantsOk = true := by decide
  simp only [Params.valid, hc, Params.rateOk, Params.tonesDiffer, Params.markOk, Params.spaceOk, Params.rxCapOk,
    Params.txCapOk, Bool.true_and, Bool.and_eq_true, beq_iff_eq, bne_iff_ne, decide_eq_true_eq, and_assoc]
  rfl

/-- Settles O7. -/
theorem brokenInstanceIsRefused : Obligations.BrokenInstanceIsRefused := fun s => by
  rw [step_badParameters_iff, ← valid_iff, Bool.not_eq_true]

end Sys2Proof.Machine
end

section
/-! The invariant, part by part: the filter, the deframer, the framer; and that every operation and every step keeps
it (10_state.md R57, 43_tx_framer.md R212). -/

namespace Sys2Proof.Machine

/-! ## The parts of the invariant -/

/-- (I12): the bounds of the four filter taps. -/
structure TapsInv (D : DemodState) : Prop where
  y0 : -23831 ≤ D.iir_y0.toInt ∧ D.iir_y0.toInt ≤ 23831
  y1 : -23831 ≤ D.iir_y1.toInt ∧ D.iir_y1.toInt ≤ 23831
  x0 : -4064 ≤ D.iir_x0.toInt ∧ D.iir_x0.toInt ≤ 4096
  x1 : -4064 ≤ D.iir_x1.toInt ∧ D.iir_x1.toInt ≤ 4096

/-- (I3) and (I4): the byte being assembled. -/
structure DeframerInv (H : HdlcRxState) : Prop where
  hunting : H.in_sync = false → H.bit_index = 0 ∧ H.current_byte = 0
  unfilled : ∀ k, k ≤ 7 - H.bit_index.toNat → H.current_byte.getLsbD k = false

/-- (I7) to (I10), and what R212 says of the counter. -/
structure ModInv (p : Params) (M : ModState) : Prop where
  tone : M.phase_inc = p.markInc ∨ M.phase_inc = p.spaceInc
  countdown : M.sample_countdown ≤ p.spbTx
  mask : M.bit_mask = 0 ∨ ∃ k, k < 8 ∧ M.bit_mask = 1#8 <<< k
  idle : M.sending = false → M.sample_countdown = 0 ∧ M.bit_mask = 0
  framer : FramerInv M

/-- With its byte ended or stuffing enabled, the framer's counter is at most 5. -/
theorem FramerInv.ones_le_five {M : ModState} (h : FramerInv M) (hm : M.bit_stuff_enabled = true ∨ M.bit_mask = 0) :
    M.consecutive_ones.toNat ≤ 5 := by
  cases hst : M.bit_stuff_enabled
  · rw [h.controlDone hst (by simpa [hst] using hm)]
    decide
  · exact h.stuffed hst

/-- (I11) follows from R212. -/
theorem FramerInv.ones_le_twelve {M : ModState} (h : FramerInv M) : M.consecutive_ones.toNat ≤ 12 := by
  by_cases hm : M.bit_stuff_enabled = true ∨ M.bit_mask = 0
  · have := h.ones_le_five hm
    omega
  · obtain ⟨hst, hmask⟩ := not_or.1 hm
    obtain ⟨-, k, hk, -, hones⟩ := h.control (Bool.eq_false_iff.2 hst) hmask
    omega

/-- The invariant from its parts; (I1), (I2) and (I6) hold by the widths of the registers. -/
theorem State.Inv.of_parts {s : State} (ht : TapsInv s.S.D) (hd : DeframerInv s.S.H) (hm : ModInv s.params s.S.M)
    (hrx : s.S.RXF.length ≤ s.params.rxFifoCap) (htx : s.S.TXF.length ≤ s.params.txFifoCap) : s.Inv :=
  .of_spec
    { phase := s.S.D.curr_phase.isLt, index := Nat.le_of_lt_succ s.S.H.bit_index.isLt
      hunting := hd.hunting, unfilled := hd.unfilled, rxLen := hrx, txLen := htx
      acc := s.S.M.phase_acc.isLt, tone := hm.tone, countdown := hm.countdown, mask := hm.mask, idle := hm.idle
      ones := hm.framer.ones_le_twelve, tapsY := ⟨ht.y0, ht.y1⟩, tapsX := ⟨ht.x0, ht.x1⟩ }
    hm.framer

section
variable {s : State} (h : s.Inv)
include h

theorem State.Inv.taps : TapsInv s.S.D := ⟨h.spec.tapsY.1, h.spec.tapsY.2, h.spec.tapsX.1, h.spec.tapsX.2⟩

theorem State.Inv.deframer : DeframerInv s.S.H := ⟨h.spec.hunting, h.spec.unfilled⟩

theorem State.Inv.modulator : ModInv s.params s.S.M :=
  ⟨h.spec.tone, h.spec.countdown, h.spec.mask, h.spec.idle, h.framer⟩

theorem State.Inv.rxFifo : s.S.RXF.length ≤ s.params.rxFifoCap := h.spec.rxLen

theorem State.Inv.txFifo : s.S.TXF.length ≤ s.params.txFifoCap := h.spec.txLen

end

/-! ## The reset state -/

theorem resetWith_inv (p : Params) : (State.resetWith p).Inv :=
  .of_parts
    (by constructor <;> simp [State.resetWith, Block.reset])
    ⟨fun _ => ⟨rfl, rfl⟩, fun k _ => BitVec.getLsbD_zero⟩
    { tone := .inl rfl, countdown := Nat.zero_le _, mask := .inl rfl, idle := fun _ => ⟨rfl, rfl⟩
      framer := ⟨fun _ => Nat.zero_le _, fun h => (nomatch h), fun h => (nomatch h)⟩ }
    (Nat.zero_le _) (Nat.zero_le _)

/-- Settles O10. -/
theorem invariantHoldsAtReset : Obligations.InvariantHoldsAtReset := ⟨resetWith_inv, by decide⟩

/-! ## The receiver -/

/-- The deframer with a byte discarded, in either state. -/
theorem deframerInv_discarded (w : Byte) (sync : Bool) : DeframerInv ⟨w, sync, 0, 0⟩ :=
  ⟨fun _ => ⟨rfl, rfl⟩, fun _ _ => BitVec.getLsbD_zero⟩

/-- The window is no part of the deframer's invariant. -/
theorem DeframerInv.withWindow {H : HdlcRxState} (h : DeframerInv H) (w : Byte) :
    DeframerInv { H with demod_bits := w } := ⟨h.hunting, h.unfilled⟩

/-- A data bit before the eighth. -/
theorem acceptBit_of_incomplete {cap : Nat} {bit : Bool} {H : HdlcRxState} {f : List Byte} (h : H.bit_index ≠ 7) :
    acceptBit cap bit H f =
      ({ H with current_byte := shiftInTop H.current_byte bit, bit_index := H.bit_index + 1 }, f) := by
  rw [acceptBit, if_neg h]

/-- The eighth data bit. -/
theorem acceptBit_of_complete {cap : Nat} {bit : Bool} {H : HdlcRxState} {f : List Byte} (h : H.bit_index = 7) :
    acceptBit cap bit H f =
      (H.restart (pushByte cap (shiftInTop H.current_byte bit) H.in_sync f).1,
        (pushByte cap (shiftInTop H.current_byte bit) H.in_sync f).2) := by
  rw [acceptBit, if_pos h]

theorem bit_index_succ {n : BitVec 3} (h : n ≠ 7) : (n + 1).toNat = n.toNat + 1 := by
  revert n; decide

/-- A data bit that does not complete the byte fills the highest of the places left. -/
theorem acceptBit_inv (cap : Nat) (bit : Bool) {H : HdlcRxState} (f : List Byte) (h : DeframerInv H)
    (hsync : H.in_sync = true) : DeframerInv (acceptBit cap bit H f).1 := by
  by_cases hidx : H.bit_index = 7
  · rw [acceptBit_of_complete hidx]
    exact deframerInv_discarded _ _
  · have hsucc := bit_index_succ hidx
    have hlt := (H.bit_index + 1).isLt
    rw [acceptBit_of_incomplete hidx]
    refine ⟨fun hs => absurd (hsync.symm.trans hs) (by decide), fun k hk => ?_⟩
    dsimp only at hk ⊢
    rw [shiftInTop_getLsbD, if_neg (by omega)]
    exact h.unfilled _ (by omega)

theorem hdlcRx_inv (cap : Nat) (bit : Bool) {H : HdlcRxState} (f : List Byte) (h : DeframerInv H) :
    DeframerInv (hdlcRx cap bit H f).1 := by
  obtain ⟨-, e⟩ | ⟨-, -, e⟩ | ⟨-, -, -, e⟩ | ⟨-, -, -, -, e⟩ | ⟨-, -, hsync, -, e⟩ := hdlcRx_cases cap bit H f
    <;> rw [e]
  · split <;> exact deframerInv_discarded _ _
  · exact deframerInv_discarded _ _
  · exact h.withWindow _
  · exact h.withWindow _
  · exact acceptBit_inv cap bit f (h.withWindow _) hsync

theorem deframe_inv (cap : Nat) (e : Option Bool) {H : HdlcRxState} (f : List Byte) (h : DeframerInv H) :
    DeframerInv (deframe cap e H f).1 := by
  cases e with
  | none => exact h
  | some bit => exact hdlcRx_inv cap bit f h

/-- The new taps stand within the bounds (40_rx_discriminator.md R137). -/
theorem shiftTaps_inv {D : DemodState} (h : TapsInv D) {x y : Tap} {raw d : Byte} (hx : x.toInt = filterInput raw d)
    (hy : y.toInt = filterOutput x.toInt D.iir_x1.toInt D.iir_y1.toInt) : TapsInv (D.shiftTaps x y) := by
  have hxb : -4064 ≤ x.toInt ∧ x.toInt ≤ 4096 := hx ▸ filterInput_bounds raw d
  exact ⟨h.y1, hy ▸ filterOutput_bounds hxb h.x1 h.y1, h.x1, hxb⟩

theorem bitSync_inv (b : Bool) {D : DemodState} (h : TapsInv D) : TapsInv (bitSync b D).2 := by
  constructor <;> simp only [bitSync_iir_x0, bitSync_iir_x1, bitSync_iir_y0, bitSync_iir_y1, h.x0, h.x1, h.y0, h.y1,
    and_self]

theorem exec_rxSample_inv {arg : Byte} {s t : State} (h : s.Inv) (he : exec (.rxSample arg) s = .next t) : t.Inv := by
  obtain ⟨-, -, hfifo⟩ := exec_rxSample_fifo he
  rw [exec_rxSample] at he
  obtain ⟨x, y, hx, hy, rfl⟩ := execRxSample_cases he
  exact .of_parts (bitSync_inv _ (shiftTaps_inv h.taps hx hy)) (deframe_inv _ _ _ h.deframer) h.modulator
    (hfifo h.rxFifo) h.txFifo

/-! ## The modulator -/

/-- A slot start with no byte to send leaves an idle modulator. -/
theorem ready_false_inv {p : Params} {M M' : ModState} {f f' : List Byte} (h : ModInv p M)
    (hc : M.sample_countdown = 0) (hr : ready M f = (false, M', f')) : ModInv p M' := by
  obtain ⟨hm, -, ⟨-, rfl⟩ | ⟨-, rfl⟩⟩ := ready_false hr
  · exact ⟨h.tone, h.countdown, h.mask, fun _ => ⟨hc, hm⟩, h.framer.stuffed, h.framer.control, h.framer.controlDone⟩
  · exact ⟨h.tone, h.countdown, h.mask, fun _ => ⟨hc, hm⟩, fun _ => h.framer.ones_le_five (.inr hm),
      fun e => (nomatch e), fun e => (nomatch e)⟩

/-- A fetched byte starts with a counter of at most 5, whatever its stuffing. -/
theorem load_inv {p : Params} {M : ModState} {c : Byte} {stuff : Bool} (h : ModInv p M) (hs : M.sending = true)
    (hm : M.bit_mask = 0) (hctl : stuff = false → isControl c = true) : ModInv p (M.load c stuff) := by
  have hones := h.framer.ones_le_five (.inr hm)
  exact
    { tone := h.tone, countdown := h.countdown, mask := .inr ⟨0, by decide, rfl⟩
      idle := fun e => absurd (hs.symm.trans e) (by decide)
      framer :=
        { stuffed := fun _ => hones
          control := fun e _ => ⟨hctl e, 0, by decide, rfl, hones⟩
          controlDone := fun _ e => absurd e (by simp) } }

/-- A slot start with a byte to send leaves a bit of it to send. -/
theorem ready_true_inv {p : Params} {M M' : ModState} {f f' : List Byte} (h : ModInv p M) (hs : M.sending = true)
    (hr : ready M f = (true, M', f')) : ModInv p M' ∧ M'.bit_mask ≠ 0 := by
  obtain ⟨hm, rfl, -⟩ | ⟨hm, c, stuff, rfl, hctl⟩ := ready_true hr
  · exact ⟨h, hm⟩
  · exact ⟨load_inv h hs hm hctl, by simp⟩

theorem mask_shift_eq_zero : ∀ k : Nat, k < 8 → (1#8 <<< k : Byte) <<< 1 = 0#8 → k = 7 := by decide

theorem mask_shift_ne_zero {k : Nat} (hk : k < 8) (h : (1#8 <<< k) <<< 1 ≠ 0#8) : k + 1 < 8 := by
  revert k; decide

/-- The mask moves to the next bit, or past the eighth. -/
theorem mask_shift {m : Byte} (h : m = 0 ∨ ∃ k, k < 8 ∧ m = 1#8 <<< k) :
    m <<< 1 = 0 ∨ ∃ k, k < 8 ∧ m <<< 1 = 1#8 <<< k := by
  obtain rfl | ⟨k, hk, rfl⟩ := h
  · exact .inl rfl
  · by_cases hz : (1#8 <<< k) <<< 1 = 0#8
    · exact .inl hz
    · exact .inr ⟨k + 1, mask_shift_ne_zero hk hz, (BitVec.shiftLeft_add _ _ _).symm⟩

/-- The eighth bit of a control byte is a 0: so "the counter is 0 when such a byte ends". -/
theorem control_last_bit {c : Byte} (h : isControl c = true) : c &&& 1#8 <<< 7 = 0 := by
  obtain rfl | rfl := (isControl_iff c).1 h <;> decide

theorem ones_succ {n : BitVec 4} (h : n.toNat ≤ 12) : (n + 1).toNat = n.toNat + 1 := by
  rw [BitVec.toNat_add]
  exact Nat.mod_eq_of_lt (by simp; omega)

/-- A 1 bit sent raises the counter within its bounds. -/
theorem framerInv_one {M : ModState} (h : FramerInv M) (hdue : M.stuffDue = false) (hbit : M.dataBit = true)
    (hmask : M.bit_mask ≠ 0) :
    FramerInv { M with consecutive_ones := M.consecutive_ones + 1, bit_mask := M.bit_mask <<< 1 } := by
  have hsucc := ones_succ h.ones_le_twelve
  refine ⟨fun hst => ?stuffed, fun hst hm => ?control, fun hst hm => ?done⟩
  case stuffed =>
    have hlt : ¬ 5 ≤ M.consecutive_ones.toNat := fun hle => by
      rw [(stuffDue_iff M).2 ⟨hst, hle⟩] at hdue
      cases hdue
    show (M.consecutive_ones + 1).toNat ≤ 5
    omega
  case control =>
    obtain ⟨hctl, k, hk, hmk, hones⟩ := h.control hst hmask
    refine ⟨hctl, k + 1, mask_shift_ne_zero hk (hmk ▸ hm), ?_, ?_⟩
    · show M.bit_mask <<< 1 = _
      rw [hmk, BitVec.shiftLeft_add]
    · show (M.consecutive_ones + 1).toNat ≤ _
      omega
  case done =>
    obtain ⟨hctl, k, hk, hmk, -⟩ := h.control hst hmask
    obtain rfl := mask_shift_eq_zero k hk (hmk ▸ hm)
    rw [dataBit_iff, hmk, control_last_bit hctl] at hbit
    exact absurd rfl hbit

/-- A slot whose bit clears the counter keeps the framer's invariant. -/
theorem framerInv_zero {M : ModState} (h : FramerInv M) (hmask : M.bit_mask ≠ 0) (tone : Phase) {m : Byte}
    (hm : m = M.bit_mask ∨ m = M.bit_mask <<< 1) :
    FramerInv { M with consecutive_ones := 0, phase_inc := tone, bit_mask := m } := by
  refine ⟨fun _ => Nat.zero_le _, fun hst hne => ?_, fun _ _ => rfl⟩
  obtain ⟨hctl, k, hk, hmk, -⟩ := h.control hst hmask
  obtain rfl | rfl := hm
  · exact ⟨hctl, k, hk, hmk, Nat.zero_le _⟩
  · exact ⟨hctl, k + 1, mask_shift_ne_zero hk (hmk ▸ hne), (hmk ▸ (BitVec.shiftLeft_add _ _ _).symm), Nat.zero_le _⟩

/-- The line bit of a slot and the reload of the countdown. -/
theorem sendBit_inv {p : Params} {M : ModState} (h : ModInv p M) (hs : M.sending = true) (hmask : M.bit_mask ≠ 0) :
    ModInv p { M.sendBit p with sample_countdown := p.spbTx } := by
  have hidle : ∀ P : Prop, M.sending = false → P := fun _ e => absurd (hs.symm.trans e) (by decide)
  obtain ⟨-, e⟩ | ⟨hdue, hbit, e⟩ | ⟨-, -, e⟩ := sendBit_cases p M <;> rw [e]
  · have hf := framerInv_zero h.framer hmask (M.switchTone p).phase_inc (.inl rfl)
    exact ⟨switchTone_tone p M, le_rfl, h.mask, hidle _, hf.stuffed, hf.control, hf.controlDone⟩
  · have hf := framerInv_one h.framer hdue hbit hmask
    exact ⟨h.tone, le_rfl, mask_shift h.mask, hidle _, hf.stuffed, hf.control, hf.controlDone⟩
  · have hf := framerInv_zero h.framer hmask (M.switchTone p).phase_inc (.inr rfl)
    exact ⟨switchTone_tone p M, le_rfl, mask_shift h.mask, hidle _, hf.stuffed, hf.control, hf.controlDone⟩

theorem ddsStep_inv {p : Params} {M : ModState} (h : ModInv p M) : ModInv p (ddsStep M).2 :=
  ⟨h.tone, (Nat.sub_le _ _).trans h.countdown, h.mask,
    fun hs => ⟨by show M.sample_countdown - 1 = 0; rw [(h.idle hs).1], (h.idle hs).2⟩,
    h.framer.stuffed, h.framer.control, h.framer.controlDone⟩

theorem txTick_inv {p : Params} {M : ModState} (f : List Byte) (h : ModInv p M) : ModInv p (txTick p M f).2.1 := by
  obtain ⟨-, e⟩ | ⟨-, -, e⟩ | ⟨-, hc, M', f', hr, e⟩ | ⟨hs, -, M', f', hr, e⟩ := txTick_cases p M f <;> rw [e]
  · exact h
  · exact ddsStep_inv h
  · exact ready_false_inv h hc hr
  · obtain ⟨h', hmask⟩ := ready_true_inv h hs hr
    exact ddsStep_inv (sendBit_inv h' ((ready_true_keeps hr).1.trans hs) hmask)

/-- A started modulator was idle, so no bit of a byte remains (10_state.md R57, I10). -/
theorem start_inv {p : Params} {M : ModState} (h : ModInv p M) (hs : M.sending = false) : ModInv p (M.start p) :=
  { tone := .inl rfl, countdown := h.countdown, mask := h.mask, idle := fun e => (nomatch e)
    framer := ⟨fun _ => Nat.zero_le _, fun _ hm => absurd (h.idle hs).2 hm, fun _ _ => rfl⟩ }

/-! ## Every operation and every step -/

/-- The invariant speaks of the parameters and the block only. -/
theorem State.Inv.of_same {s t : State} (h : s.Inv) (hp : t.params = s.params) (hS : t.S = s.S) : t.Inv := by
  obtain ⟨hspec, hf, hc⟩ := h
  rw [← hp, ← hS] at hspec hc
  rw [← hS] at hf
  exact ⟨hspec, hf, hc⟩

theorem exec_inv {i : Instr} {s t : State} (h : s.Inv) (he : exec i s = .next t) : t.Inv := by
  cases i with
  | rxSample arg => exact exec_rxSample_inv h he
  | txTick =>
    rw [exec_txTick] at he
    cases he
    obtain ⟨bs, hbs⟩ := txTick_fifo s.params s.S.M s.S.TXF
    have hle := h.txFifo
    rw [hbs, List.length_append] at hle
    exact .of_parts h.taps h.deframer (txTick_inv _ h.modulator) h.rxFifo (Nat.le_of_add_left_le hle)
  | txPush b =>
    obtain ⟨-, rfl⟩ | ⟨hroom, rfl⟩ := exec_txPush_cases he
    · exact h.of_same rfl rfl
    · refine .of_parts h.taps h.deframer h.modulator h.rxFifo ?_
      have hle := h.txFifo
      simp
      omega
  | rxPop =>
    obtain ⟨-, rfl⟩ | ⟨b, rest, hf, rfl⟩ := exec_rxPop_cases he
    · exact h.of_same rfl rfl
    · refine .of_parts h.taps h.deframer h.modulator ?_ h.txFifo
      have hle := h.rxFifo
      rw [hf] at hle
      exact Nat.le_of_succ_le hle
  | txStart =>
    obtain ⟨-, rfl⟩ | ⟨hs, rfl⟩ := exec_txStart_cases he
    · exact h.of_same rfl rfl
    · exact .of_parts h.taps h.deframer (start_inv h.modulator hs) h.rxFifo h.txFifo
  | init => cases he; exact (resetWith_inv s.params).of_same rfl rfl
  | nop | rdStatus => cases he; exact h.of_same rfl rfl

/-- Settles O9: a step is the operation of an arrival, or changes nothing. -/
theorem invariantIsKeptByEveryStep : Obligations.InvariantIsKeptByEveryStep := by
  intro s t _ h hstep
  obtain ⟨-, ⟨-, rfl⟩ | ⟨a, rest, i, -, -, he⟩⟩ := step_cases hstep
  · exact ⟨h.of_same rfl rfl, rfl⟩
  · exact ⟨exec_inv (h.of_same (t := s.taken rest) rfl rfl) he, (exec_params he).trans (s.taken_params rest)⟩

/-! ## Safe runs -/

/-- Within the bounds of the taps every operation completes. -/
theorem exec_completes (i : Instr) {s : State} (h : s.Inv) : ∃ t, exec i s = .next t := by
  cases i with
  | rxSample arg => exact execRxSample_completes arg h.taps.x1 h.taps.y1
  | txPush b =>
    by_cases hf : s.S.TXF.length = s.params.txFifoCap
    · exact ⟨_, exec_txPush_full b hf⟩
    · exact ⟨_, exec_txPush_room b hf⟩
  | rxPop =>
    cases hf : s.S.RXF with
    | nil => exact ⟨_, exec_rxPop_empty hf⟩
    | cons b rest => exact ⟨_, exec_rxPop_cons hf⟩
  | nop | init | txTick | txStart | rdStatus => exact ⟨_, rfl⟩

/-- A word a conforming environment sends decodes to an operation (30_encoding.md R103). -/
theorem decode_of_conforms {a : Arrival} (h : a.conforms = true) : ∃ i, decode a.word = .ok i := by
  obtain ⟨i, hi, -⟩ | ⟨h8, -⟩ := decode_cases a.word
  · exact ⟨i, hi⟩
  · simp only [Arrival.conforms, Bool.and_eq_true, decide_eq_true_eq] at h
    omega

/-- A safe state takes a step, to a safe state. -/
theorem step_of_safe {s : State} (h : s.Safe) : ∃ t, step s = .next t ∧ t.Safe := by
  obtain ⟨hv, hinv, hin⟩ := h
  have keeps := fun t (ht : step s = .next t) => invariantIsKeptByEveryStep s t hv hinv ht
  cases hbox : s.inbox with
  | nil =>
    have hs := step_of_no_arrival hv hbox
    exact ⟨s.quiet, hs, hv, (keeps _ hs).1, hin⟩
  | cons a rest =>
    rw [hbox, List.all_cons, Bool.and_eq_true] at hin
    obtain ⟨i, hi⟩ := decode_of_conforms hin.1
    obtain ⟨t, ht⟩ := exec_completes i (hinv.of_same (t := s.taken rest) rfl rfl)
    have hs := (step_of_arrival hv hbox hi).trans ht
    obtain ⟨hp, hinbox⟩ := exec_keeps_machine ht
    exact ⟨t, hs, hp ▸ hv, (keeps _ hs).1, hinbox ▸ hin.2⟩

/-- Settles O8, by induction on the number of steps. -/
theorem safeRunsNeverStop : Obligations.SafeRunsNeverStop := by
  intro n
  induction n with
  | zero => exact fun s h => ⟨s, rfl, h⟩
  | succ n ih =>
    intro s h
    obtain ⟨t, hs, ht⟩ := step_of_safe h
    rw [core_run_next n hs]
    exact ih t ht

end Sys2Proof.Machine
end

section
/-! The deframer on one bit: a flag, an abort, a data bit; and on a run of bits. -/

namespace Sys2Proof.Machine

/-! ## Flags and aborts -/

theorem hdlcRx_of_flag {cap : Nat} {bit : Bool} {H : HdlcRxState} {f : List Byte}
    (h : isFlag (shiftIn H.demod_bits bit) = true) :
    hdlcRx cap bit H f =
      if f.length = cap then (⟨0x7E, false, 0, 0⟩, f) else (⟨0x7E, true, 0, 0⟩, f ++ [0x7E]) := by
  obtain ⟨-, e⟩ | ⟨hn, -⟩ | ⟨hn, -⟩ | ⟨hn, -⟩ | ⟨hn, -⟩ := hdlcRx_cases cap bit H f
  · rw [e, (isFlag_iff _).1 h]
  all_goals simp [h] at hn

/-- Settles O26. -/
theorem flagRestartsTheFrame : Obligations.FlagRestartsTheFrame :=
  fun _ _ _ _ h => hdlcRx_of_flag ((isFlag_iff _).2 h)

/-- A flag ends in a 0 and an abort in a 1. -/
theorem isFlag_eq_false_of_isAbort {w : Byte} (h : isAbort w = true) : isFlag w = false := by
  revert w; decide +kernel

theorem hdlcRx_of_abort {cap : Nat} {bit : Bool} {H : HdlcRxState} {f : List Byte}
    (h : isAbort (shiftIn H.demod_bits bit) = true) :
    hdlcRx cap bit H f = (⟨shiftIn H.demod_bits bit, false, 0, 0⟩, f) := by
  obtain ⟨hf, -⟩ | ⟨-, -, e⟩ | ⟨-, hn, -⟩ | ⟨-, hn, -⟩ | ⟨-, hn, -⟩ := hdlcRx_cases cap bit H f
  · simp [isFlag_eq_false_of_isAbort h] at hf
  · exact e
  all_goals simp [h] at hn

theorem isAbort_of_seven_ones : ∀ w : Byte, (∀ k, k < 7 → w.getLsbD k = true) → isAbort w = true := by
  decide +kernel

/-- Settles O27. -/
theorem abortDiscardsThePartialByte : Obligations.AbortDiscardsThePartialByte :=
  fun _ _ _ _ h => hdlcRx_of_abort (isAbort_of_seven_ones _ h)

/-! ## Data bits -/

/-- The window of a bit that the deframer assembles: no flag, no abort, no stuffed 0. -/
def isDataWindow (w : Byte) : Prop := isFlag w = false ∧ isAbort w = false ∧ isStuffed w = false

theorem hdlcRx_of_data {cap : Nat} {bit : Bool} {H : HdlcRxState} {f : List Byte} (hsync : H.in_sync = true)
    (h : isDataWindow (shiftIn H.demod_bits bit)) :
    hdlcRx cap bit H f = acceptBit cap bit { H with demod_bits := shiftIn H.demod_bits bit } f := by
  obtain ⟨hflag, habort, hst⟩ := h
  obtain ⟨hf, -⟩ | ⟨-, ha, -⟩ | ⟨-, -, hs, -⟩ | ⟨-, -, -, hs, -⟩ | ⟨-, -, -, -, e⟩ := hdlcRx_cases cap bit H f
  · simp [hf] at hflag
  · simp [ha] at habort
  · simp [hsync] at hs
  · simp [hs] at hst
  · exact e

/-- A data bit IN_FRAME that does not complete a byte. -/
theorem hdlcRx_of_data_incomplete {cap : Nat} {bit : Bool} {H : HdlcRxState} {f : List Byte} (hsync : H.in_sync = true)
    (h : isDataWindow (shiftIn H.demod_bits bit)) (hidx : H.bit_index ≠ 7) :
    hdlcRx cap bit H f =
      (⟨shiftIn H.demod_bits bit, true, shiftInTop H.current_byte bit, H.bit_index + 1⟩, f) := by
  rw [← hsync, hdlcRx_of_data hsync h]
  exact acceptBit_of_incomplete hidx

/-- A data bit IN_FRAME that completes a byte. -/
theorem hdlcRx_of_data_complete {cap : Nat} {bit : Bool} {H : HdlcRxState} {f : List Byte} (hsync : H.in_sync = true)
    (h : isDataWindow (shiftIn H.demod_bits bit)) (hidx : H.bit_index = 7) :
    hdlcRx cap bit H f =
      (⟨shiftIn H.demod_bits bit, (pushByte cap (shiftInTop H.current_byte bit) true f).1, 0, 0⟩,
        (pushByte cap (shiftInTop H.current_byte bit) true f).2) := by
  rw [← hsync, hdlcRx_of_data hsync h]
  exact acceptBit_of_complete hidx

/-- The bit enters at bit 7, written as an addend. -/
theorem shiftInTop_eq (r : Byte) (bit : Bool) : shiftInTop r bit = r >>> 1 ||| (if bit then 0x80 else 0x00) := by
  cases bit <;> rfl

/-- Settles O30: the outcomes of a completed byte are those of its pushes. -/
theorem dataBitIsAssembledAndTheByteIsPushed : Obligations.DataBitIsAssembledAndTheByteIsPushed := by
  intro cap bit H f hsync hflag habort hst c w
  have hc : c = shiftInTop H.current_byte bit := (shiftInTop_eq _ _).symm
  have hdata : isDataWindow (shiftIn H.demod_bits bit) :=
    ⟨Bool.eq_false_iff.2 (mt (isFlag_iff _).1 hflag), Bool.eq_false_iff.2 (mt (isAbort_iff _).1 habort),
      Bool.eq_false_iff.2 (mt (isStuffed_iff _).1 hst)⟩
  have hpush : H.bit_index = 7 →
      hdlcRx cap bit H f = (⟨w, (pushByte cap c true f).1, 0, 0⟩, (pushByte cap c true f).2) := fun hidx =>
    hc ▸ hdlcRx_of_data_complete hsync hdata hidx
  refine ⟨fun hidx => ?assembled, fun hidx hord => ?ordinary, fun hidx hspec => ?special⟩
  case assembled => rw [hc, hdlcRx_of_data_incomplete hsync hdata hidx, hsync]
  case ordinary =>
    have hsp : isSpecial c = false := Bool.eq_false_iff.2 (mt (isSpecial_iff c).1 hord)
    rw [hpush hidx, pushByte_cases, hsp]
    exact ⟨fun hlt => by rw [if_neg hlt.ne]; rfl, fun hfull => by rw [if_pos hfull]⟩
  case special =>
    rw [hpush hidx, pushByte_cases, (isSpecial_iff c).2 hspec, if_pos rfl]
    refine ⟨fun h2 => ?_, fun h1 => ?_, fun h0 => ?_⟩
    · rw [if_neg (by omega), if_neg (by omega)]; rfl
    · rw [if_neg (by omega), if_pos h1]; rfl
    · rw [if_pos h0]

/-- Where the FIFO has room for it, a completed byte is pushed as a conforming writer writes it (30_encoding.md
R116). -/
theorem pushByte_of_room {cap : Nat} {c : Byte} (sync : Bool) {f : List Byte}
    (hroom : f.length + (escapeByte c).length ≤ cap) : pushByte cap c sync f = (sync, f ++ escapeByte c) := by
  rw [pushByte_cases]
  unfold escapeByte at *
  cases hsp : isSpecial c <;>
    simp only [hsp, if_true, if_false, Bool.false_eq_true, List.length_cons, List.length_nil] at hroom ⊢
  · rw [if_neg (by omega)]
  · rw [if_neg (by omega), if_neg (by omega)]

/-! ## A run of bits -/

/-- The deframer on a run of decoded bits. -/
def hdlcRxAll (cap : Nat) (bits : List Bool) (r : HdlcRxState × List Byte) : HdlcRxState × List Byte :=
  bits.foldl (fun r b => hdlcRx cap b r.1 r.2) r

@[simp] theorem hdlcRxAll_nil (cap : Nat) (r : HdlcRxState × List Byte) : hdlcRxAll cap [] r = r := rfl

@[simp] theorem hdlcRxAll_cons (cap : Nat) (b : Bool) (bits : List Bool) (r : HdlcRxState × List Byte) :
    hdlcRxAll cap (b :: bits) r = hdlcRxAll cap bits (hdlcRx cap b r.1 r.2) := rfl

theorem hdlcRxAll_append (cap : Nat) (bits bits' : List Bool) (r : HdlcRxState × List Byte) :
    hdlcRxAll cap (bits ++ bits') r = hdlcRxAll cap bits' (hdlcRxAll cap bits r) := List.foldl_append

/-- The bits that enter at the top leave the byte with the last of them at bit 7. -/
theorem foldl_shiftInTop_getLsbD : ∀ (bits : List Bool) (r : Byte) (k : Nat), k < 8 →
    (bits.foldl shiftInTop r).getLsbD k =
      if k + bits.length < 8 then r.getLsbD (k + bits.length) else bits.getD (k + bits.length - 8) false
  | [], r, k, hk => by simp [hk]
  | b :: bits, r, k, hk => by
    rw [List.foldl_cons, foldl_shiftInTop_getLsbD bits _ k hk, shiftInTop_getLsbD, List.length_cons]
    obtain hlt | heq | hgt : k + bits.length < 7 ∨ k + bits.length = 7 ∨ 8 ≤ k + bits.length := by omega
    · rw [if_pos (by omega), if_neg (by omega), if_pos (by omega), Nat.add_assoc]
    · rw [if_pos (by omega), if_pos heq, if_neg (by omega), ← Nat.add_assoc, heq]; rfl
    · rw [if_neg (by omega), if_neg (by omega), show k + (bits.length + 1) - 8 = k + bits.length - 8 + 1 by omega,
        List.getD_cons_succ]

/-- Data bits that reach the eighth of a byte complete and push it. -/
theorem hdlcRxAll_of_data (cap : Nat) (f : List Byte) : ∀ (bits : List Bool) (H : HdlcRxState), H.in_sync = true →
    H.bit_index.toNat + bits.length = 8 →
    (∀ k, k < bits.length → isDataWindow ((bits.take (k + 1)).foldl shiftIn H.demod_bits)) →
    hdlcRxAll cap bits (H, f) =
      (⟨bits.foldl shiftIn H.demod_bits, (pushByte cap (bits.foldl shiftInTop H.current_byte) true f).1, 0, 0⟩,
        (pushByte cap (bits.foldl shiftInTop H.current_byte) true f).2)
  | [], H, _, hlen, _ => absurd hlen H.bit_index.isLt.ne
  | b :: bits, H, hsync, hlen, hwin => by
    have hdata : isDataWindow (shiftIn H.demod_bits b) := hwin 0 (by simp)
    rw [List.length_cons] at hlen
    rw [hdlcRxAll_cons]
    by_cases hidx : H.bit_index = 7
    · have hone : 7 + (bits.length + 1) = 8 := by rw [hidx] at hlen; exact hlen
      have hnil : bits = [] := List.length_eq_zero_iff.1 (by omega)
      rw [hdlcRx_of_data_complete hsync hdata hidx, hnil]; rfl
    · have hsucc := bit_index_succ hidx
      rw [hdlcRx_of_data_incomplete hsync hdata hidx]
      exact hdlcRxAll_of_data cap f bits _ rfl (by dsimp only; omega) fun k hk => by
        simpa using hwin (k + 1) (by simpa using hk)

/-- Settles O31: the eight bits fill the byte from the top, so the first ends at bit 0. -/
theorem eightBitsMakeAByteLsbFirst : Obligations.EightBitsMakeAByteLsbFirst := by
  intro cap H f bits hsync hidx hlen hwin
  refine ⟨bits.foldl shiftInTop H.current_byte, fun k hk => ?bit, ?pushed⟩
  case bit => rw [foldl_shiftInTop_getLsbD bits _ k hk, hlen, if_neg (by omega), Nat.add_sub_cancel]
  case pushed => exact hdlcRxAll_of_data cap f bits H hsync (by rw [hidx, hlen]; rfl) fun k hk => hwin k (hlen ▸ hk)

end Sys2Proof.Machine
end

section
/-! The line round trip, in two layers: NRZI turns the slots' tones into the slots' line bits, and the deframer undoes
the framer's stuffing and escaping (43_tx_framer.md R216). -/

namespace Sys2Proof.Machine

/-! ## The line bits of the slots -/

/-- The line bit of a slot (30_encoding.md R108): 1 where the tone is held. -/
def lineBit (M : ModState) : Bool := !M.stuffDue && M.dataBit

/-- The modulator at the end of the start of a slot that has a byte to send. -/
def sendSlot (p : Params) (M : ModState) : ModState := { M.sendBit p with sample_countdown := p.spbTx }

/-- The line bits of at most `n` slots, as `slotTones` gives their tones. -/
def lineBits (p : Params) : Nat → ModState → List Byte → List Bool
  | 0, _, _ => []
  | n + 1, M, f =>
    let r := ready M f
    if r.1 then lineBit r.2.1 :: lineBits p n (sendSlot p r.2.1) r.2.2 else []

theorem lineBits_slot (p : Params) (n : Nat) {M M' : ModState} {f f' : List Byte} (h : ready M f = (true, M', f')) :
    lineBits p (n + 1) M f = lineBit M' :: lineBits p n (sendSlot p M') f' := by
  simp [lineBits, h]

theorem lineBits_stop (p : Params) (n : Nat) {M M' : ModState} {f f' : List Byte} (h : ready M f = (false, M', f')) :
    lineBits p n M f = [] := by
  cases n <;> simp [lineBits, h]

theorem slotTones_slot (p : Params) (n : Nat) {M M' : ModState} {f f' : List Byte} (h : ready M f = (true, M', f')) :
    slotTones p (n + 1) M f = (sendSlot p M').phase_inc :: slotTones p n (sendSlot p M') f' := by
  simp [slotTones, startSlot, h, sendSlot]

theorem slotTones_stop (p : Params) (n : Nat) {M M' : ModState} {f f' : List Byte} (h : ready M f = (false, M', f')) :
    slotTones p n M f = [] := by
  cases n <;> simp [slotTones, startSlot, h]

/-! ## NRZI -/

/-- A switched tone is received as the other raw bit. -/
theorem rawOfTone_switchTone {p : Params} (hp : p.valid = true) (markIs : Bool) (M : ModState) :
    rawOfTone p markIs (M.switchTone p).phase_inc = !rawOfTone p markIs M.phase_inc := by
  have hne := markInc_ne_spaceInc hp
  by_cases hm : M.phase_inc = p.markInc
  · simp [switchTone_of_mark hm, rawOfTone, hm, hne.symm]
  · simp [switchTone_of_not_mark hm, rawOfTone, hm]

/-- A line bit 1 holds the raw bit, a line bit 0 inverts it. -/
theorem rawOfTone_sendSlot {p : Params} (hp : p.valid = true) (markIs : Bool) (M : ModState) :
    rawOfTone p markIs (sendSlot p M).phase_inc = (lineBit M == rawOfTone p markIs M.phase_inc) := by
  unfold sendSlot lineBit
  obtain ⟨hd, e⟩ | ⟨hd, hb, e⟩ | ⟨hd, hb, e⟩ := sendBit_cases p M <;> rw [e]
  · simp [hd, rawOfTone_switchTone hp markIs M]
  · simp [hd, hb]
  · simp [hd, hb, rawOfTone_switchTone hp markIs M]

/-- The decoded bit of a raw bit tells whether it equals the one before. -/
theorem nrziDecode_shiftIn (found : Byte) (raw : Bool) :
    nrziDecode (shiftIn found raw) = (raw == found.getLsbD 0) := by
  rw [nrziDecode, edgeFound_shiftIn]
  cases raw <;> cases found.getLsbD 0 <;> rfl

theorem ready_true_phase_inc {M M' : ModState} {f f' : List Byte} (h : ready M f = (true, M', f')) :
    M'.phase_inc = M.phase_inc := by
  obtain ⟨-, rfl, -⟩ | ⟨-, c, stuff, rfl, -⟩ := ready_true h <;> rfl

/-- NRZI is undone: a receiver whose last raw bit is that of the tone in force deframes the line bits of the slots. -/
theorem takeAll_slotTones {p : Params} (hp : p.valid = true) (markIs : Bool) (cap : Nat) :
    ∀ (n : Nat) (M : ModState) (f : List Byte) (r : LineRx),
      r.found_bits.getLsbD 0 = rawOfTone p markIs M.phase_inc →
      ((r.takeAll cap ((slotTones p n M f).map (rawOfTone p markIs))).H,
        (r.takeAll cap ((slotTones p n M f).map (rawOfTone p markIs))).RXF) =
      hdlcRxAll cap (lineBits p n M f) (r.H, r.RXF)
  | 0, _, _, _, _ => rfl
  | n + 1, M, f, r, hraw => by
    obtain ⟨⟨ok, M', f'⟩, hr⟩ : ∃ x, ready M f = x := ⟨_, rfl⟩
    cases ok
    · rw [slotTones_stop p _ hr, lineBits_stop p _ hr]; rfl
    · rw [slotTones_slot p n hr, lineBits_slot p n hr]
      rw [← ready_true_phase_inc hr] at hraw
      have hbit : nrziDecode (shiftIn r.found_bits (rawOfTone p markIs (sendSlot p M').phase_inc)) = lineBit M' := by
        rw [nrziDecode_shiftIn, rawOfTone_sendSlot hp, hraw]
        cases lineBit M' <;> cases rawOfTone p markIs M'.phase_inc <;> rfl
      have htail := takeAll_slotTones hp markIs cap n (sendSlot p M') f'
        (r.take cap (rawOfTone p markIs (sendSlot p M').phase_inc)) (shiftIn_getLsbD_zero _ _)
      rw [hdlcRxAll_cons, ← hbit]
      exact htail

end Sys2Proof.Machine
end

section
/-! The deframer on the line bits of a frame: the flags, and the data bytes with their stuffed bits. -/

namespace Sys2Proof.Machine

/-- The deframer and the RX FIFO after the line bits of at most `n` slots. -/
def received (p : Params) (cap n : Nat) (M : ModState) (f : List Byte) (r : HdlcRxState × List Byte) :
    HdlcRxState × List Byte :=
  hdlcRxAll cap (lineBits p n M f) r

theorem received_slot (p : Params) (cap n : Nat) {M M' : ModState} {f f' : List Byte} (r : HdlcRxState × List Byte)
    (h : ready M f = (true, M', f')) :
    received p cap (n + 1) M f r = received p cap n (sendSlot p M') f' (hdlcRx cap (lineBit M') r.1 r.2) := by
  rw [received, lineBits_slot p n h]; rfl

theorem received_stop (p : Params) (cap n : Nat) {M M' : ModState} {f f' : List Byte} (r : HdlcRxState × List Byte)
    (h : ready M f = (false, M', f')) : received p cap n M f r = r := by
  rw [received, lineBits_stop p n h]; rfl

theorem ready_of_mask_ne_zero {M : ModState} (h : M.bit_mask ≠ 0) (f : List Byte) : ready M f = (true, M, f) := by
  rw [ready_cases, if_neg h]

theorem ready_of_mask_eq_zero {M : ModState} (h : M.bit_mask = 0) (f : List Byte) : ready M f = fetch M f := by
  rw [ready_cases, if_pos h]

/-- A fetch does not wait: the slots of a byte due for a fetch are those of the byte fetched. -/
theorem received_fetch (p : Params) (cap n : Nat) {M M' : ModState} {f f' : List Byte} (r : HdlcRxState × List Byte)
    (hm : M.bit_mask = 0) (h : fetch M f = (true, M', f')) (hm' : M'.bit_mask ≠ 0) :
    received p cap n M f r = received p cap n M' f' r := by
  have hr := (ready_of_mask_eq_zero hm f).trans h
  have hr' := ready_of_mask_ne_zero hm' f'
  cases n with
  | zero => rfl
  | succ n => rw [received_slot p cap n r hr, received_slot p cap n r hr']

/-! ## The mask -/

/-- Bit `j` of the byte is due; past the eighth, none (43_tx_framer.md R206, R208). -/
def maskAt (j : Nat) : Byte := 1#8 <<< j

theorem maskAt_ne_zero : ∀ j, j < 8 → maskAt j ≠ 0 := by decide

theorem maskAt_succ (j : Nat) : maskAt j <<< 1 = maskAt (j + 1) := (BitVec.shiftLeft_add _ _ _).symm

theorem and_maskAt : ∀ (c : Byte) (j : Nat), j < 8 → (c &&& maskAt j != 0) = c.getLsbD j := by decide +kernel

theorem dataBit_of_maskAt {M : ModState} {j : Nat} (hj : j < 8) (h : M.bit_mask = maskAt j) :
    M.dataBit = M.current_byte.getLsbD j := by
  rw [ModState.dataBit, h]
  exact and_maskAt _ j hj

theorem lineBit_of_not_due {M : ModState} {j : Nat} (hdue : M.stuffDue = false) (hj : j < 8)
    (h : M.bit_mask = maskAt j) : lineBit M = M.current_byte.getLsbD j := by
  rw [lineBit, hdue, dataBit_of_maskAt hj h]; rfl

/-! ## A flag on the line -/

/-- The bits of a flag, least-significant first. -/
def flagBits : List Bool := [false, true, true, true, true, true, true, false]

theorem flagBits_drop : ∀ j, j < 8 → flagBits.drop j = (0x7E#8 : Byte).getLsbD j :: flagBits.drop (j + 1) := by decide

/-- The modulator sends an unstuffed flag and has its bit `j` to send. -/
structure SendsFlag (j : Nat) (M : ModState) : Prop where
  unstuffed : M.bit_stuff_enabled = false
  byte : M.current_byte = 0x7E
  mask : M.bit_mask = maskAt j

/-- A slot of a flag. -/
theorem SendsFlag.slot {p : Params} {j : Nat} {M : ModState} (h : SendsFlag j M) (hj : j < 8) :
    lineBit M = (0x7E#8 : Byte).getLsbD j ∧ SendsFlag (j + 1) (sendSlot p M) ∧
    ((0x7E#8 : Byte).getLsbD j = false → (sendSlot p M).consecutive_ones = 0) := by
  obtain ⟨hst, hc, hm⟩ := h
  have hdue := stuffDue_of_stuffing_disabled hst
  have hbit := dataBit_of_maskAt hj hm
  rw [hc] at hbit
  rw [sendSlot, sendBit_of_not_stuffDue p hdue]
  refine ⟨(lineBit_of_not_due hdue hj hm).trans (congrArg (BitVec.getLsbD · j) hc), ⟨hst, hc, ?_⟩, fun hz => ?_⟩
  · show M.bit_mask <<< 1 = _
    rw [hm, maskAt_succ]
  · simp [hbit, hz]

/-- The slots of a flag: eight, unstuffed, with the counter at 0 after them. -/
theorem SendsFlag.slots {p : Params} (n : Nat) (f : List Byte) :
    ∀ (k j : Nat) {M : ModState}, j + k = 8 → 0 < k → SendsFlag j M →
      ∃ M', M'.bit_mask = 0 ∧ M'.consecutive_ones = 0 ∧
        lineBits p (n + k) M f = flagBits.drop j ++ lineBits p n M' f
  | k + 1, j, M, hjk, _, h => by
    have hj : j < 8 := by omega
    have hr := ready_of_mask_ne_zero (h.mask ▸ maskAt_ne_zero j hj) f
    obtain ⟨hbit, hnext, hones⟩ := h.slot (p := p) hj
    rw [← Nat.add_assoc, lineBits_slot p _ hr, flagBits_drop j hj, hbit]
    cases k with
    | zero =>
      obtain rfl : j = 7 := by omega
      exact ⟨_, hnext.mask, hones (by decide), rfl⟩
    | succ k =>
      obtain ⟨M', hm, ho, e⟩ := SendsFlag.slots n f (k + 1) (j + 1) (by omega) (by omega) hnext
      exact ⟨M', hm, ho, by rw [e]; rfl⟩

/-- A flag due for a fetch is sent in eight slots. -/
theorem lineBits_flag (p : Params) (n : Nat) {M : ModState} (f : List Byte) (hm : M.bit_mask = 0) :
    ∃ M', M'.bit_mask = 0 ∧ M'.consecutive_ones = 0 ∧
      lineBits p (n + 8) M (0x7E :: f) = flagBits ++ lineBits p n M' f := by
  have hfetch : fetch M (0x7E :: f) = (true, M.load 0x7E false, f) := fetch_plain M (by decide) f
  have hr := (ready_of_mask_eq_zero hm _).trans hfetch
  have hr' : ready (M.load 0x7E false) f = (true, M.load 0x7E false, f) := ready_of_mask_ne_zero (by simp) f
  obtain ⟨M', hm', ho, e⟩ := SendsFlag.slots (p := p) n f 8 0 (M := M.load 0x7E false) rfl (by decide) ⟨rfl, rfl, rfl⟩
  refine ⟨M', hm', ho, Eq.trans ?_ e⟩
  rw [lineBits_slot p (n + 7) hr, lineBits_slot p (n + 7) hr']

/-! ## A flag received -/

/-- At most `m` bits of the byte being assembled are accepted, where the deframer accepts any. -/
def AtMost (m : Nat) (H : HdlcRxState) : Prop := H.in_sync = true → H.bit_index.toNat ≤ m

/-- A bit that completes no flag, no abort and no byte pushes nothing. -/
theorem hdlcRx_of_incomplete {cap : Nat} {bit : Bool} {H : HdlcRxState} {f : List Byte} {m : Nat} (hm : m < 7)
    (h : AtMost m H) (hflag : isFlag (shiftIn H.demod_bits bit) = false)
    (habort : isAbort (shiftIn H.demod_bits bit) = false) :
    (hdlcRx cap bit H f).2 = f ∧ AtMost (m + 1) (hdlcRx cap bit H f).1 := by
  by_cases hdrop : H.in_sync = false ∨ isStuffed (shiftIn H.demod_bits bit) = true
  · rw [hdlcRx_of_dropped hflag habort hdrop]
    exact ⟨rfl, fun hs => Nat.le_succ_of_le (h hs)⟩
  · obtain ⟨hsync, hst⟩ := not_or.1 hdrop
    rw [Bool.not_eq_false] at hsync
    rw [Bool.not_eq_true] at hst
    have hidx := h hsync
    have hne : H.bit_index ≠ 7 := fun e7 => by
      have h7 : 7 ≤ m := by rw [e7] at hidx; exact hidx
      omega
    rw [hdlcRx_of_data_incomplete hsync ⟨hflag, habort, hst⟩ hne]
    exact ⟨rfl, fun _ => (bit_index_succ hne).le.trans (Nat.succ_le_succ hidx)⟩

/-- Bits that complete no flag, no abort and no byte push nothing. -/
theorem hdlcRxAll_of_incomplete (cap : Nat) (f : List Byte) :
    ∀ (bits : List Bool) (m : Nat) (H : HdlcRxState), m + bits.length ≤ 7 → AtMost m H →
      (∀ k, k < bits.length → isFlag ((bits.take (k + 1)).foldl shiftIn H.demod_bits) = false ∧
        isAbort ((bits.take (k + 1)).foldl shiftIn H.demod_bits) = false) →
      (hdlcRxAll cap bits (H, f)).2 = f ∧
      (hdlcRxAll cap bits (H, f)).1.demod_bits = bits.foldl shiftIn H.demod_bits
  | [], _, _, _, _, _ => ⟨rfl, rfl⟩
  | b :: bits, m, H, hlen, hm, hwin => by
    rw [List.length_cons] at hlen
    obtain ⟨hflag, habort⟩ := hwin 0 (by simp)
    obtain ⟨hf, hm'⟩ := hdlcRx_of_incomplete (cap := cap) (f := f) (by omega) hm hflag habort
    have htail := hdlcRxAll_of_incomplete cap f bits (m + 1) (hdlcRx cap b H f).1 (by omega) hm' fun k hk => by
      simpa using hwin (k + 1) (by simpa using hk)
    rw [hdlcRxAll_cons, List.foldl_cons, ← hdlcRx_demod_bits cap b H f]
    have hpair : hdlcRx cap b H f = ((hdlcRx cap b H f).1, f) := Prod.ext rfl hf
    rw [hpair]
    exact htail

/-- The windows of a flag's first seven bits, where its first 0 completes no flag. -/
theorem flagBits_windows : ∀ w : Byte, isFlag (shiftIn w false) = false → ∀ k, k < 7 →
    isFlag (((flagBits.take 7).take (k + 1)).foldl shiftIn w) = false ∧
    isAbort (((flagBits.take 7).take (k + 1)).foldl shiftIn w) = false := by
  decide +kernel

/-- Eight bits fill the window. -/
theorem flagBits_window : ∀ w : Byte, shiftIn ((flagBits.take 7).foldl shiftIn w) false = 0x7E := by decide +kernel

/-- A flag received at the end of a byte, or HUNTING, pushes its marker and starts the frame. -/
theorem hdlcRxAll_flag {cap : Nat} {H : HdlcRxState} {f : List Byte} (hroom : f.length < cap) (hm : AtMost 0 H)
    (hwin : isFlag (shiftIn H.demod_bits false) = false) :
    hdlcRxAll cap flagBits (H, f) = (⟨0x7E, true, 0, 0⟩, f ++ [0x7E]) := by
  obtain ⟨hf, hw⟩ := hdlcRxAll_of_incomplete cap f (flagBits.take 7) 0 H (by decide) hm (flagBits_windows _ hwin)
  have hsplit : flagBits = flagBits.take 7 ++ [false] := rfl
  rw [hsplit, hdlcRxAll_append, hdlcRxAll_cons, hdlcRxAll_nil, hf]
  generalize (hdlcRxAll cap (flagBits.take 7) (H, f)).1 = H' at hw
  have hflag : isFlag (shiftIn H'.demod_bits false) = true := (isFlag_iff _).2 (by rw [hw, flagBits_window])
  rw [hdlcRx_of_flag hflag, if_neg hroom.ne]

end Sys2Proof.Machine
end

section
/-! The data bytes of a frame on the line, and the round trip. -/

namespace Sys2Proof.Machine

/-! ## The 1 bits at the end of the window -/

/-- The window ends in exactly `n` 1 bits. -/
def EndsInOnes (n : Nat) (w : Byte) : Prop := w.toNat % 2 ^ (n + 1) = 2 ^ n - 1

/-- After five 1 bits a 0 is a stuffed one, and after fewer than six no flag. -/
theorem EndsInOnes.stuffed {w : Byte} (h : EndsInOnes 5 w) :
    isFlag (shiftIn w false) = false ∧ isStuffed (shiftIn w false) = true ∧ EndsInOnes 0 (shiftIn w false) := by
  unfold EndsInOnes at *
  revert w; decide +kernel

theorem EndsInOnes.no_flag {n : Nat} {w : Byte} (hn : n ≤ 5) (h : EndsInOnes n w) :
    isFlag (shiftIn w false) = false := by
  have key : ∀ n, n ≤ 5 → ∀ w : Byte, w.toNat % 2 ^ (n + 1) = 2 ^ n - 1 → isFlag (shiftIn w false) = false := by
    decide +kernel
  exact key n hn w h

/-- After fewer than five 1 bits every bit is a data bit. -/
theorem EndsInOnes.data {n : Nat} {w : Byte} (hn : n < 5) (h : EndsInOnes n w) (b : Bool) :
    isDataWindow (shiftIn w b) ∧ EndsInOnes (if b then n + 1 else 0) (shiftIn w b) := by
  have key : ∀ n, n < 5 → ∀ (w : Byte) (b : Bool), w.toNat % 2 ^ (n + 1) = 2 ^ n - 1 →
      (isFlag (shiftIn w b) = false ∧ isAbort (shiftIn w b) = false ∧ isStuffed (shiftIn w b) = false) ∧
      (shiftIn w b).toNat % 2 ^ ((if b then n + 1 else 0) + 1) = 2 ^ (if b then n + 1 else 0) - 1 := by
    decide +kernel
  exact key n hn w b h

/-! ## The framer and the deframer inside a frame -/

/-- The deframer is IN_FRAME, and its window ends in as many 1 bits as the framer counts, at most five. -/
structure InFrame (M : ModState) (H : HdlcRxState) : Prop where
  sync : H.in_sync = true
  ones : M.consecutive_ones.toNat ≤ 5
  window : EndsInOnes M.consecutive_ones.toNat H.demod_bits

/-- Between two bytes of a frame. -/
structure BetweenBytes (M : ModState) (H : HdlcRxState) : Prop extends InFrame M H where
  mask : M.bit_mask = 0
  index : H.bit_index = 0
  empty : H.current_byte = 0

/-- The framer has bit `j` of the data byte `c` to send, and the deframer has the bits before it. -/
structure InByte (c : Byte) (j : Nat) (M : ModState) (H : HdlcRxState) : Prop extends InFrame M H where
  stuffing : M.bit_stuff_enabled = true
  byte : M.current_byte = c
  mask : M.bit_mask = maskAt j
  index : H.bit_index = BitVec.ofNat 3 j
  assembled : H.current_byte = c <<< (8 - j)

theorem stuffDue_of_stuffing {M : ModState} (h : M.bit_stuff_enabled = true) (hle : M.consecutive_ones.toNat ≤ 5) :
    M.stuffDue = true ↔ M.consecutive_ones.toNat = 5 := by
  rw [stuffDue_iff]
  exact ⟨fun hd => Nat.le_antisymm hle hd.2, fun e => ⟨h, e.ge⟩⟩

/-- A stuffed slot and the deframer that drops its 0 (43_tx_framer.md R207, 42_rx_deframer.md R177). -/
theorem InByte.stuffedSlot {p : Params} {cap : Nat} {c : Byte} {j : Nat} {M : ModState} {H : HdlcRxState}
    {f : List Byte} (h : InByte c j M H) (h5 : M.consecutive_ones.toNat = 5) :
    ∃ H', hdlcRx cap (lineBit M) H f = (H', f) ∧ InByte c j (sendSlot p M) H' ∧
      (sendSlot p M).consecutive_ones.toNat = 0 := by
  have hdue := (stuffDue_of_stuffing h.stuffing h.ones).2 h5
  obtain ⟨hflag, hst, hends⟩ := (h5 ▸ h.window).stuffed
  have hbit : lineBit M = false := by rw [lineBit, hdue]; rfl
  have hsend : sendSlot p M =
      { M.switchTone p with consecutive_ones := 0, sample_countdown := p.spbTx } := by
    rw [sendSlot, sendBit_of_stuffDue p hdue]
  rw [hbit, hdlcRx_of_dropped hflag (isAbort_eq_false_of_isStuffed hst) (.inr hst), hsend]
  exact ⟨_, rfl, { sync := h.sync, ones := Nat.zero_le _, window := hends, stuffing := h.stuffing, byte := h.byte
                   mask := h.mask, index := h.index, assembled := h.assembled }, rfl⟩

/-- The framer after a data bit of a byte it stuffs. -/
theorem InByte.sendSlot_data {p : Params} {c : Byte} {j : Nat} {M : ModState} {H : HdlcRxState} (h : InByte c j M H)
    (hj : j < 8) (hlt : M.consecutive_ones.toNat < 5) :
    lineBit M = c.getLsbD j ∧ (sendSlot p M).bit_stuff_enabled = true ∧ (sendSlot p M).current_byte = c ∧
    (sendSlot p M).bit_mask = maskAt (j + 1) ∧
    (sendSlot p M).consecutive_ones.toNat = if c.getLsbD j then M.consecutive_ones.toNat + 1 else 0 := by
  have hdue : M.stuffDue = false := Bool.eq_false_iff.2 fun hd =>
    hlt.ne ((stuffDue_of_stuffing h.stuffing h.ones).1 hd)
  have hbit : M.dataBit = c.getLsbD j := by rw [dataBit_of_maskAt hj h.mask, h.byte]
  rw [sendSlot, sendBit_of_not_stuffDue p hdue, hbit]
  refine ⟨by rw [lineBit, hdue, hbit]; rfl, h.stuffing, h.byte, ?_, ?_⟩
  · show M.bit_mask <<< 1 = _
    rw [h.mask, maskAt_succ]
  · dsimp only
    split
    · exact ones_succ (by omega)
    · rfl

theorem shiftInTop_assembled : ∀ (c : Byte) (j : Nat), j < 8 →
    shiftInTop (c <<< (8 - j)) (c.getLsbD j) = c <<< (7 - j) := by decide +kernel

/-- A data slot before the eighth: the deframer assembles its bit. -/
theorem InByte.dataSlot {p : Params} {cap : Nat} {c : Byte} {j : Nat} {M : ModState} {H : HdlcRxState} {f : List Byte}
    (h : InByte c j M H) (hj : j < 7) (hlt : M.consecutive_ones.toNat < 5) :
    ∃ H', hdlcRx cap (lineBit M) H f = (H', f) ∧ InByte c (j + 1) (sendSlot p M) H' ∧
      (sendSlot p M).consecutive_ones.toNat ≤ M.consecutive_ones.toNat + 1 := by
  obtain ⟨hbit, hst, hbyte, hmask, hones⟩ := h.sendSlot_data (p := p) (by omega) hlt
  obtain ⟨hdata, hends⟩ := h.window.data hlt (c.getLsbD j)
  have hidx : H.bit_index ≠ 7 := by
    rw [h.index]
    interval_cases j <;> decide
  have hle : (sendSlot p M).consecutive_ones.toNat ≤ M.consecutive_ones.toNat + 1 := by
    rw [hones]; split <;> omega
  have hassembled : shiftInTop H.current_byte (c.getLsbD j) = c <<< (8 - (j + 1)) := by
    rw [h.assembled, shiftInTop_assembled c j (by omega), Nat.sub_add_eq, Nat.sub_right_comm]
  have hsucc : H.bit_index + 1 = BitVec.ofNat 3 (j + 1) := by
    rw [h.index, BitVec.ofNat_add]; rfl
  rw [hbit, hdlcRx_of_data_incomplete h.sync hdata hidx]
  exact ⟨_, rfl, { sync := rfl, ones := by omega, window := hones ▸ hends, stuffing := hst, byte := hbyte
                   mask := hmask, index := hsucc, assembled := hassembled }, hle⟩

/-- The eighth data slot: the deframer completes the byte and pushes it. -/
theorem InByte.lastSlot {p : Params} {cap : Nat} {c : Byte} {M : ModState} {H : HdlcRxState} {f : List Byte}
    (h : InByte c 7 M H) (hlt : M.consecutive_ones.toNat < 5) (hroom : f.length + (escapeByte c).length ≤ cap) :
    ∃ H', hdlcRx cap (lineBit M) H f = (H', f ++ escapeByte c) ∧ BetweenBytes (sendSlot p M) H' ∧
      (sendSlot p M).consecutive_ones.toNat ≤ M.consecutive_ones.toNat + 1 := by
  obtain ⟨hbit, hst, hbyte, hmask, hones⟩ := h.sendSlot_data (p := p) (by omega) hlt
  obtain ⟨hdata, hends⟩ := h.window.data hlt (c.getLsbD 7)
  have hle : (sendSlot p M).consecutive_ones.toNat ≤ M.consecutive_ones.toNat + 1 := by
    rw [hones]; split <;> omega
  have hbyte : shiftInTop H.current_byte (c.getLsbD 7) = c := by
    rw [h.assembled, shiftInTop_assembled c 7 (by decide)]
    exact BitVec.shiftLeft_zero _
  rw [hbit, hdlcRx_of_data_complete h.sync hdata h.index, hbyte, pushByte_of_room true hroom]
  exact ⟨_, rfl, { sync := rfl, ones := by omega, window := hones ▸ hends, mask := hmask, index := rfl
                   empty := rfl }, hle⟩

/-! ## The slots of a data byte, counted

A data bit lengthens the run of 1 bits by at most one and a stuffed bit ends a run of five, so a byte takes ten slots at
the most: `n` slots that are enough for the bits left, at six fifths of a slot each, and for the `B` fifths after them,
stay enough. -/

/-- A stuffed slot, if one is due, comes before the data slot. -/
theorem received_unstuffed (p : Params) (cap : Nat) {c : Byte} {j n B : Nat} {M : ModState} {H : HdlcRxState}
    {f : List Byte} (g : List Byte) (h : InByte c j M H) (hj : j < 8)
    (hn : M.consecutive_ones.toNat + 6 * (8 - j) + B ≤ 5 * n) :
    ∃ n' M' H', received p cap n M g (H, f) = received p cap n' M' g (H', f) ∧ InByte c j M' H' ∧
      M'.consecutive_ones.toNat < 5 ∧ M'.consecutive_ones.toNat + 6 * (8 - j) + B ≤ 5 * n' := by
  by_cases h5 : M.consecutive_ones.toNat = 5
  · obtain ⟨n, rfl⟩ : ∃ m, n = m + 1 := ⟨n - 1, by omega⟩
    obtain ⟨H', hrx, h', hz⟩ := h.stuffedSlot (p := p) (cap := cap) (f := f) h5
    refine ⟨n, _, H', ?_, h', by omega, by omega⟩
    rw [received_slot p cap n _ (ready_of_mask_ne_zero (h.mask ▸ maskAt_ne_zero j hj) g), hrx]
  · exact ⟨n, M, H, rfl, h, by have := h.ones; omega, hn⟩

/-- The rest of a data byte. -/
theorem received_rest (p : Params) (cap : Nat) {c : Byte} {B : Nat} {f : List Byte} (g : List Byte)
    (hroom : f.length + (escapeByte c).length ≤ cap) :
    ∀ (k j n : Nat) {M : ModState} {H : HdlcRxState}, j + k = 7 → InByte c j M H →
      M.consecutive_ones.toNat + 6 * (8 - j) + B ≤ 5 * n →
      ∃ n' M' H', received p cap n M g (H, f) = received p cap n' M' g (H', f ++ escapeByte c) ∧ BetweenBytes M' H' ∧
        M'.consecutive_ones.toNat + B ≤ 5 * n' := by
  intro k
  induction k with
  | zero =>
    rintro j n M H rfl h hn
    obtain ⟨n, M, H, hskip, h, hlt, hn⟩ := received_unstuffed p cap (f := f) g h (by omega) hn
    obtain ⟨n, rfl⟩ : ∃ m, n = m + 1 := ⟨n - 1, by omega⟩
    obtain ⟨H', hrx, h', hle⟩ := h.lastSlot (p := p) hlt hroom
    refine ⟨n, _, H', hskip.trans ?_, h', by omega⟩
    rw [received_slot p cap n _ (ready_of_mask_ne_zero (h.mask ▸ maskAt_ne_zero _ (by omega)) g), hrx]
  | succ k ih =>
    intro j n M H hjk h hn
    obtain ⟨n, M, H, hskip, h, hlt, hn⟩ := received_unstuffed p cap (f := f) g h (by omega) hn
    obtain ⟨n, rfl⟩ : ∃ m, n = m + 1 := ⟨n - 1, by omega⟩
    obtain ⟨H', hrx, h', hle⟩ := h.dataSlot (p := p) (cap := cap) (f := f) (by omega) hlt
    obtain ⟨n', M', H'', hrest, hend⟩ := ih (j + 1) n (by omega) h' (by omega)
    refine ⟨n', M', H'', hskip.trans (Eq.trans ?_ hrest), hend⟩
    rw [received_slot p cap n _ (ready_of_mask_ne_zero (h.mask ▸ maskAt_ne_zero j (by omega)) g), hrx]

/-- A byte as a conforming writer writes it is fetched as a data byte, with stuffing. -/
theorem fetch_escapeByte (M : ModState) (c : Byte) (g : List Byte) :
    fetch M (escapeByte c ++ g) = (true, M.load c true, g) := by
  unfold escapeByte
  cases hsp : isSpecial c
  · have hns : ¬ (c = 0x7E ∨ c = 0x7F ∨ c = 0x1B) := by rw [← isSpecial_iff, hsp]; decide
    have hctl : isControl c = false := Bool.eq_false_iff.2 fun hc =>
      hns (((isControl_iff c).1 hc).imp_right .inl)
    have hesc : c ≠ 0x1B := fun e => hns (.inr (.inr e))
    exact (fetch_plain M hesc g).trans (by rw [hctl]; rfl)
  · exact fetch_escaped M c g

/-- A data byte due for a fetch. -/
theorem received_byte (p : Params) (cap : Nat) {c : Byte} {n B : Nat} {M : ModState} {H : HdlcRxState} {f : List Byte}
    (g : List Byte) (h : BetweenBytes M H) (hroom : f.length + (escapeByte c).length ≤ cap)
    (hn : M.consecutive_ones.toNat + 48 + B ≤ 5 * n) :
    ∃ n' M' H', received p cap n M (escapeByte c ++ g) (H, f) = received p cap n' M' g (H', f ++ escapeByte c) ∧
      BetweenBytes M' H' ∧ M'.consecutive_ones.toNat + B ≤ 5 * n' := by
  have hload : InByte c 0 (M.load c true) H :=
    { sync := h.sync, ones := h.ones, window := h.window, stuffing := rfl, byte := rfl, mask := rfl, index := h.index
      assembled := h.empty.trans (BitVec.shiftLeft_eq_zero le_rfl).symm }
  rw [received_fetch p cap n (H, f) h.mask (fetch_escapeByte M c g) (by simp)]
  exact received_rest p cap g hroom 7 0 n rfl hload hn

/-! ## The frame -/

/-- A flag due for a fetch takes eight slots. -/
theorem received_flag (p : Params) {cap : Nat} (n : Nat) {M : ModState} {H : HdlcRxState} {f : List Byte}
    (g : List Byte) (hmask : M.bit_mask = 0) (hroom : f.length < cap) (hm : AtMost 0 H)
    (hwin : isFlag (shiftIn H.demod_bits false) = false) :
    ∃ M', M'.bit_mask = 0 ∧ M'.consecutive_ones = 0 ∧ received p cap (n + 8) M (0x7E :: g) (H, f) =
      received p cap n M' g (⟨0x7E, true, 0, 0⟩, f ++ [0x7E]) := by
  obtain ⟨M', hmask', ho, hbits⟩ := lineBits_flag p n g hmask
  refine ⟨M', hmask', ho, ?_⟩
  rw [received, hbits, hdlcRxAll_append, hdlcRxAll_flag hroom hm hwin]; rfl

/-- The data bytes of a frame and its closing flag, by induction on the payload. -/
theorem received_payload (p : Params) (cap : Nat) : ∀ (payload : List Byte) (n : Nat) {M : ModState} {H : HdlcRxState}
    {f : List Byte}, BetweenBytes M H → f.length + (payload.flatMap escapeByte ++ [0x7E]).length ≤ cap →
    M.consecutive_ones.toNat + 48 * payload.length + 40 ≤ 5 * n →
    received p cap n M (payload.flatMap escapeByte ++ [0x7E]) (H, f) =
      (⟨0x7E, true, 0, 0⟩, f ++ (payload.flatMap escapeByte ++ [0x7E]))
  | [], n, M, H, f, h, hroom, hn => by
    obtain ⟨n, rfl⟩ : ∃ m, n = m + 8 := ⟨n - 8, by simp at hn; omega⟩
    obtain ⟨M', hmask, -, hflag⟩ := received_flag p n (f := f) [] h.mask (by simpa using hroom)
      (fun _ => by rw [h.index]; exact le_rfl) (h.window.no_flag h.ones)
    exact hflag.trans (received_stop p cap n _ ((ready_of_mask_eq_zero hmask []).trans (fetch_nil M')))
  | c :: payload, n, M, H, f, h, hroom, hn => by
    rw [List.flatMap_cons, List.append_assoc] at hroom ⊢
    rw [List.length_append] at hroom
    rw [List.length_cons] at hn
    obtain ⟨n', M', H', hbyte, h', hn'⟩ := received_byte p cap (c := c) (B := 48 * payload.length + 40) (n := n)
      (f := f) (payload.flatMap escapeByte ++ [0x7E]) h (by omega) (by omega)
    have hroom' : (f ++ escapeByte c).length + (payload.flatMap escapeByte ++ [0x7E]).length ≤ cap := by
      rw [List.length_append (as := f)]; omega
    rw [hbyte, received_payload p cap payload n' h' hroom' (by omega), List.append_assoc]

/-- A frame has at least a byte for each byte of the payload, and its two flags. -/
theorem le_length_flatMap_escapeByte (payload : List Byte) : payload.length ≤ (payload.flatMap escapeByte).length := by
  induction payload with
  | nil => exact le_rfl
  | cons c payload ih =>
    have hc : 1 ≤ (escapeByte c).length := by unfold escapeByte; split <;> simp
    simp only [List.flatMap_cons, List.length_append, List.length_cons]
    omega

/-- A whole frame, from a receiver HUNTING on an empty window. -/
theorem received_writeFrame (p : Params) {cap n : Nat} {payload : List Byte} {M : ModState} {H : HdlcRxState}
    (hmask : M.bit_mask = 0) (hhunt : H.in_sync = false) (hwin : H.demod_bits = 0)
    (hcap : (writeFrame payload).length ≤ cap) (hn : 10 * (writeFrame payload).length ≤ n) :
    received p cap n M (writeFrame payload) (H, []) = (⟨0x7E, true, 0, 0⟩, writeFrame payload) := by
  have hlen : (writeFrame payload).length = (payload.flatMap escapeByte ++ [0x7E]).length + 1 := rfl
  have hpay := le_length_flatMap_escapeByte payload
  rw [hlen] at hcap hn
  have htail := hcap
  rw [List.length_append, List.length_singleton] at hn hcap
  obtain ⟨n, rfl⟩ : ∃ m, n = m + 8 := ⟨n - 8, by omega⟩
  obtain ⟨M', hmask', ho, hflag⟩ := received_flag p (cap := cap) n (f := [])
    (payload.flatMap escapeByte ++ [0x7E]) hmask (by simp; omega)
    (fun hs => absurd (hhunt.symm.trans hs) (by decide)) (by rw [hwin]; decide)
  have hbetween : BetweenBytes M' ⟨0x7E, true, 0, 0⟩ :=
    { sync := rfl, ones := by rw [ho]; decide, window := by rw [ho]; unfold EndsInOnes; decide, mask := hmask'
      index := rfl, empty := rfl }
  refine hflag.trans ((received_payload p cap payload n hbetween (by simp at htail ⊢; omega) ?_).trans rfl)
  rw [ho]
  simp
  omega

/-- A conforming reader reads a frame as its payload between two flags. -/
theorem readItems_writeFrame (payload : List Byte) :
    readItems (writeFrame payload) = .flag :: (payload.map .data ++ [.flag]) := by
  have hbody : readItems (payload.flatMap escapeByte ++ [0x7E]) = payload.map .data ++ [.flag] := by
    induction payload with
    | nil => rfl
    | cons c payload ih =>
      rw [List.flatMap_cons, List.append_assoc, readItems_escapeByte _ _ (by simp), ih]; rfl
  rw [← hbody, writeFrame]
  obtain ⟨v, rest, hv⟩ := List.exists_cons_of_ne_nil (l := payload.flatMap escapeByte ++ [HDLC_FLAG]) (by simp)
  show readItems (0x7E :: (payload.flatMap escapeByte ++ [HDLC_FLAG])) =
    .flag :: readItems (payload.flatMap escapeByte ++ [HDLC_FLAG])
  rw [hv]
  rfl

/-- Settles O58: NRZI is undone slot by slot, and the deframer undoes the stuffing and the escapes byte by byte. -/
theorem lineRoundTrip : Obligations.LineRoundTrip := by
  intro p payload cap n M H found markIs hp hmask hhunt hwin hfound hcap hn tones r
  have hraw : found.getLsbD 0 = rawOfTone p markIs (M.start p).phase_inc := by
    rw [hfound, ModState.start_phase_inc, rawOfTone, if_pos rfl]
  have hline := takeAll_slotTones hp markIs cap n (M.start p) (writeFrame payload) ⟨found, H, []⟩ hraw
  have hframe := received_writeFrame p (M := M.start p) hmask hhunt hwin hcap hn
  obtain ⟨hH, hF⟩ := Prod.mk.inj (hline.trans hframe)
  have hF : r.RXF = writeFrame payload := hF
  have hH : r.H = ⟨0x7E, true, 0, 0⟩ := hH
  rw [hF, hH]
  exact ⟨rfl, rfl, readItems_writeFrame payload⟩

end Sys2Proof.Machine
end

section
/-! The discriminator of `RX_SAMPLE` from a state with the invariant: the delay line, the filter, silence, and inverted
samples. -/

namespace Sys2Proof.Machine

/-- Every value of a tap fits a tap. -/
theorem tapOf_of_toInt (x : Tap) : tapOf x.toInt = some x := by
  rw [tapOf_eq_some ⟨BitVec.le_toInt x, BitVec.toInt_lt⟩, BitVec.ofInt_toInt]

/-- The block after a sample whose two new taps are given, whatever the capacity of the RX FIFO. -/
theorem rxSample_of_taps (cap : Nat) {arg : Byte} {B : Block} {x y : Tap} (hx : x.toInt = filterInput arg B.DL.c3)
    (hy : y.toInt = filterOutput x.toInt B.D.iir_x1.toInt B.D.iir_y1.toInt) :
    let r := bitSync (decide (0 < y.toInt)) (B.D.shiftTaps x y)
    let d := deframe cap r.1 B.H B.RXF
    rxSample cap arg B = some (B.withRx (B.DL.shift arg) r.2 d.1 d.2) := by
  have hd : discriminate arg B.DL B.D = some (decide (0 < y.toInt), B.DL.shift arg, B.D.shiftTaps x y) := by
    unfold discriminate
    simp only [DelayLine.read_eq, ← hx, ← hy, tapOf_of_toInt]
    rfl
  rw [rxSample, hd]

/-- `RX_SAMPLE` where its two new taps are given. -/
theorem exec_rxSample_of_taps {arg : Byte} {s : State} {x y : Tap} (hx : x.toInt = filterInput arg s.S.DL.c3)
    (hy : y.toInt = filterOutput x.toInt s.S.D.iir_x1.toInt s.S.D.iir_y1.toInt) :
    let r := bitSync (decide (0 < y.toInt)) (s.S.D.shiftTaps x y)
    let d := deframe s.params.rxFifoCap r.1 s.S.H s.S.RXF
    exec (.rxSample arg) s = .next (s.answer (s.S.withRx (s.S.DL.shift arg) r.2 d.1 d.2) Response.done) := by
  rw [exec_rxSample, execRxSample, rxSample_of_taps _ hx hy]

/-- From a state with the invariant `RX_SAMPLE` completes, with its two new taps. -/
theorem exec_rxSample_of_inv (arg : Byte) {s : State} (h : s.Inv) :
    ∃ x y, x.toInt = filterInput arg s.S.DL.c3 ∧
      y.toInt = filterOutput x.toInt s.S.D.iir_x1.toInt s.S.D.iir_y1.toInt ∧
      let r := bitSync (decide (0 < y.toInt)) (s.S.D.shiftTaps x y)
      let d := deframe s.params.rxFifoCap r.1 s.S.H s.S.RXF
      exec (.rxSample arg) s = .next (s.answer (s.S.withRx (s.S.DL.shift arg) r.2 d.1 d.2) Response.done) := by
  obtain ⟨t, ht⟩ := exec_completes (.rxSample arg) h
  obtain ⟨x, y, hx, hy, -⟩ := execRxSample_cases ht
  exact ⟨x, y, hx, hy, exec_rxSample_of_taps hx hy⟩

/-- Settles O15. -/
theorem rxSampleShiftsTapsAndDelayLine : Obligations.RxSampleShiftsTapsAndDelayLine := by
  intro arg s h
  obtain ⟨x, y, hx, -, he⟩ := exec_rxSample_of_inv arg h
  refine ⟨_, he, rfl, rfl, ?input, ?_, ?_, rfl, rfl, rfl, rfl⟩
  case input =>
    rw [Int.fdiv_eq_ediv_of_nonneg _ (by decide)]
    simpa [filterInput_eq, sample] using hx
  all_goals simp

/-! ## The delay line along a run of samples -/

/-- Samples complete from a state with the invariant and pass through the delay line one after the other. -/
theorem run_samplesEvents : ∀ (args : List Byte) {s : State}, s.Inv →
    ∃ es, run (samplesEvents args) s = some es ∧ (finish s es).S.DL = args.foldl DelayLine.shift s.S.DL
  | [], s, _ => ⟨[], rfl, rfl⟩
  | arg :: args, s, h => by
    obtain ⟨x, y, -, -, he⟩ := exec_rxSample_of_inv arg h
    obtain ⟨es, hr, hdl⟩ := run_samplesEvents args (exec_inv h he)
    refine ⟨⟨.rxSample arg, s, _⟩ :: es, ?_, hdl⟩
    rw [samplesEvents, List.map_cons, run_cons_of_next he, ← samplesEvents, hr]; rfl

/-- Settles O16. -/
theorem fourthSampleBackIsRead : Obligations.FourthSampleBackIsRead := by
  intro s a b c d h
  obtain ⟨es, hr, hdl⟩ := run_samplesEvents [a, b, c, d] h
  exact ⟨es, hr, by rw [hdl]; rfl⟩

/-! ## The filter's bounds -/

/-- A sublist's sum lies between the sums of the negative and of the positive parts of the terms. -/
theorem sublist_sum_bounds {l terms : List Int} (h : terms.Sublist l) :
    (l.map (min 0)).sum ≤ terms.sum ∧ terms.sum ≤ (l.map (max 0)).sum := by
  induction h with
  | slnil => simp
  | cons a _ ih => simp only [List.map_cons, List.sum_cons]; omega
  | cons_cons a _ ih => simp only [List.map_cons, List.sum_cons]; omega

/-- Settles O17: the bounds of the taps are the invariant's, and with them no partial sum leaves 16 bits. -/
theorem filterNeverOverflows : Obligations.FilterNeverOverflows := by
  intro arg s h
  obtain ⟨x, y, -, -, he⟩ := exec_rxSample_of_inv arg h
  have htaps := (exec_inv h he).taps
  refine ⟨_, he, htaps.y1, htaps.x1, fun terms hterms => ?_⟩
  have hx := htaps.x1
  have hx' := h.taps.x1
  have hy := h.taps.y1
  have hsum := sublist_sum_bounds (List.mem_sublists.1 hterms)
  simp only [List.map_cons, List.map_nil, List.sum_cons, List.sum_nil, Int.fdiv_eq_ediv_of_nonneg, Int.reduceLE] at hsum
  omega

/-! ## Silence -/

/-- Settles O18: on a silent line the output is the feedback alone. -/
theorem silenceDecaysToAFixedPoint : Obligations.SilenceDecaysToAFixedPoint := by
  intro s h hdl hx1
  obtain ⟨x, y, hx, hy, he⟩ := exec_rxSample_of_inv 0x00 h
  have hx0 : x.toInt = 0 := by rw [hx, hdl]; rfl
  have hfeedback : y.toInt = s.S.D.iir_y1.toInt / 2 + s.S.D.iir_y1.toInt / 8 + s.S.D.iir_y1.toInt / 32 := by
    rw [hy, filterOutput_eq, hx0, hx1]; simp
  refine ⟨_, he, ?_⟩
  simp only [State.answer_S, Block.withRx_DL, Block.withRx_D, bitSync_iir_x1, bitSync_iir_y1, bitSync_sampled,
    DemodState.shiftTaps_iir_x1, DemodState.shiftTaps_iir_y1, shiftIn_getLsbD_zero, decide_eq_false_iff_not,
    ← BitVec.toInt_inj]
  refine ⟨?line, hx0, ?positive, ?nonpositive, ?near, ?below, ?fixed⟩
  case line => rw [hdl]; rfl
  all_goals omega

/-! ## Inverted samples -/

/-- The delay line of the inverted samples. -/
def DelayLine.inverted (dl : DelayLine) : DelayLine := ⟨-dl.c0, -dl.c1, -dl.c2, -dl.c3⟩

theorem sample_neg {b : Byte} (h : b ≠ 0x80) : sample (-b) = -sample b :=
  BitVec.toInt_neg_of_ne_intMin h

/-- The product of two inverted samples is that of the samples. -/
theorem filterInput_neg {raw d : Byte} (hraw : raw ≠ 0x80) (hd : d ≠ 0x80) :
    filterInput (-raw) (-d) = filterInput raw d := by
  rw [filterInput_eq, sample_neg hraw, sample_neg hd, neg_mul_neg, filterInput_eq]

/-- Settles O19: with the same product the sample leaves the same taps, and so the same everything behind them. -/
theorem invertedSamplesAreIndistinguishable : Obligations.InvertedSamplesAreIndistinguishable := by
  intro arg s t harg hc3 he
  obtain ⟨x, y, hx, hy, rfl⟩ := execRxSample_cases he
  rw [← filterInput_neg harg hc3] at hx
  exact exec_rxSample_of_taps (s := { s with S := { s.S with DL := s.S.DL.inverted } }) hx hy

end Sys2Proof.Machine
end

section
/-! The bit synchronizer: its phase, the samples between two bits it emits, and inverted decisions. -/

namespace Sys2Proof.Machine

/-- Settles O20. -/
theorem phaseMovesTowardTheThreshold : Obligations.PhaseMovesTowardTheThreshold := by
  intro b D
  rw [bitSync_phase, advancedPhase_shiftIn]

/-- The phase after the correction at a sample and the advance. -/
def nextPhase (b : Bool) (D : DemodState) : Nat := advancedPhase D (shiftIn D.sampled_bits b)

/-- The synchronizer emits a bit exactly where the advanced phase reaches 64 (41_rx_bitsync.md R155). -/
theorem bitSync_emits_iff (b : Bool) (D : DemodState) : (bitSync b D).1 ≠ none ↔ 64 ≤ nextPhase b D := by
  have h := bitSync_cases b D
  dsimp only at h
  unfold nextPhase
  split at h
  case isTrue hwrap => simp [h, hwrap]
  case isFalse hlt => simp [h, hlt]

theorem samplesToEmission_cons (b : Bool) (bs : List Bool) (D : DemodState) :
    samplesToEmission (b :: bs) D =
      if 64 ≤ nextPhase b D then some 1 else (samplesToEmission bs (bitSync b D).2).map (· + 1) := by
  have h := bitSync_cases b D
  dsimp only at h
  unfold nextPhase
  split at h
  case isTrue hwrap => rw [if_pos hwrap, samplesToEmission, h]
  case isFalse hlt => rw [if_neg hlt, samplesToEmission, h]

/-- The fastest phase: an edge at every sample moves it forward while it is below the threshold. -/
def fastest (start : Nat) : Nat → Nat
  | 0 => start
  | i + 1 => fastest start i + if fastest start i < 32 then 9 else 8

/-- The slowest phase: an edge at every sample holds it back from the threshold on. -/
def slowest (start : Nat) : Nat → Nat
  | 0 => start
  | i + 1 => slowest start i + if slowest start i < 32 then 8 else 7

/-- The next phase keeps between the slowest and the fastest. -/
theorem nextPhase_between {lo hi i : Nat} (b : Bool) {D : DemodState} (hlo : slowest lo i ≤ D.curr_phase.toNat)
    (hhi : D.curr_phase.toNat ≤ fastest hi i) :
    slowest lo (i + 1) ≤ nextPhase b D ∧ nextPhase b D ≤ fastest hi (i + 1) := by
  rw [nextPhase, advancedPhase_shiftIn, slowest, fastest]
  constructor <;> split_ifs <;> omega

/-- The synchronizer emits by the ninth sample where the slowest phase has wrapped by then, and not before the fastest
has wrapped; `i` samples are already taken. -/
theorem samplesToEmission_bounds {lo hi : Nat} (hslow : 64 ≤ slowest lo 9) :
    ∀ (bs : List Bool) (i : Nat) {D : DemodState}, 9 ≤ i + bs.length → i ≤ 9 → slowest lo i ≤ D.curr_phase.toNat →
      D.curr_phase.toNat ≤ fastest hi i →
      ∃ n, samplesToEmission bs D = some n ∧ i + n ≤ 9 ∧ 64 ≤ fastest hi (i + n)
  | [], i, D, hlen, hi9, hlo, _ => by
    obtain rfl : i = 9 := Nat.le_antisymm hi9 hlen
    exact absurd (hslow.trans hlo) (Nat.not_le.2 D.curr_phase.isLt)
  | b :: bs, i, D, hlen, hi9, hlo, hhi => by
    have hne : i ≠ 9 := fun e => absurd ((e ▸ hslow).trans hlo) (Nat.not_le.2 D.curr_phase.isLt)
    obtain ⟨hlo', hhi'⟩ := nextPhase_between b hlo hhi
    rw [samplesToEmission_cons]
    split
    case isTrue hwrap => exact ⟨1, rfl, by omega, hwrap.trans hhi'⟩
    case isFalse hlt =>
      have hphase : (bitSync b D).2.curr_phase.toNat = nextPhase b D :=
        (bitSync_phase b D).trans (Nat.mod_eq_of_lt (Nat.not_le.1 hlt))
      rw [← hphase] at hlo' hhi'
      rw [List.length_cons] at hlen
      obtain ⟨n, hn, hle, hwrap⟩ := samplesToEmission_bounds hslow bs (i + 1) (by omega) (by omega) hlo' hhi'
      have hsum : i + (n + 1) = i + 1 + n := by omega
      exact ⟨n + 1, by rw [hn]; rfl, by omega, hsum ▸ hwrap⟩

/-- Without an edge every sample advances the phase by 8. -/
theorem samplesToEmission_no_edge : ∀ (k : Nat) {D : DemodState}, 64 ≤ D.curr_phase.toNat + 8 * k →
    D.curr_phase.toNat + 8 * k < 72 → samplesToEmission (List.replicate k (D.sampled_bits.getLsbD 0)) D = some k
  | 0, D, hge, _ => absurd D.curr_phase.isLt (by omega)
  | k + 1, D, hge, hlt => by
    have hnext : nextPhase (D.sampled_bits.getLsbD 0) D = D.curr_phase.toNat + 8 := by
      rw [nextPhase, advancedPhase_shiftIn, if_pos rfl]
    rw [List.replicate_succ, samplesToEmission_cons, hnext]
    split
    case isTrue hwrap => rw [show k = 0 by omega]
    case isFalse hno =>
      have hphase : (bitSync (D.sampled_bits.getLsbD 0) D).2.curr_phase.toNat = D.curr_phase.toNat + 8 := by
        rw [bitSync_phase, ← nextPhase, hnext]
        exact Nat.mod_eq_of_lt (Nat.not_le.1 hno)
      have hbit : (bitSync (D.sampled_bits.getLsbD 0) D).2.sampled_bits.getLsbD 0 = D.sampled_bits.getLsbD 0 := by
        rw [bitSync_sampled, shiftIn_getLsbD_zero]
      have htail := samplesToEmission_no_edge k (D := (bitSync (D.sampled_bits.getLsbD 0) D).2)
        (by rw [hphase]; omega) (by rw [hphase]; omega)
      rw [hbit] at htail
      rw [htail]; rfl

/-- After an emission the phase is below 8. -/
theorem phase_lt_of_emission {b : Bool} {D : DemodState} (h : (bitSync b D).1 ≠ none) :
    (bitSync b D).2.curr_phase.toNat < 8 := by
  have hwrap := (bitSync_emits_iff b D).1 h
  have hp := D.curr_phase.isLt
  rw [nextPhase] at hwrap
  rw [bitSync_phase]
  rw [advancedPhase_shiftIn] at hwrap ⊢
  split_ifs at hwrap ⊢ <;> omega

/-- Settles O23: the counts are those at which the slowest and the fastest phase wrap. -/
theorem emissionsComeSevenToNineSamplesApart : Obligations.EmissionsComeSevenToNineSamplesApart := by
  refine ⟨fun b D => phase_lt_of_emission, ?apart, ?reset, ?steady⟩
  case apart =>
    intro D bs hphase hlen
    obtain ⟨n, hn, hle, hwrap⟩ := samplesToEmission_bounds (lo := 0) (hi := 7) (by decide) bs 0 (by omega) (by omega)
      (Nat.zero_le _) (Nat.le_of_lt_succ hphase)
    rw [Nat.zero_add] at hle hwrap
    have hfast : ∀ n, n < 7 → fastest 7 n < 64 := by decide
    exact ⟨n, hn, Nat.not_lt.1 fun hlt => absurd (hfast n hlt) (Nat.not_lt.2 hwrap), hle⟩
  case reset =>
    intro p bs hlen
    obtain ⟨n, hn, hle, hwrap⟩ := samplesToEmission_bounds (lo := 0) (hi := 0) (by decide) bs 0
      (D := (Block.reset p).D) (by omega) (by omega) (Nat.zero_le _) le_rfl
    rw [Nat.zero_add] at hle hwrap
    have hfast : ∀ n, n < 8 → fastest 0 n < 64 := by decide
    exact ⟨n, hn, Nat.not_lt.1 fun hlt => absurd (hfast n hlt) (Nat.not_lt.2 hwrap), hle⟩
  case steady => exact fun D hphase => samplesToEmission_no_edge 8 (by omega) (by omega)

/-- The DemodState with both registers of raw decisions inverted. -/
def DemodState.inverted (D : DemodState) : DemodState :=
  { D with sampled_bits := ~~~D.sampled_bits, found_bits := ~~~D.found_bits }

theorem nextPhase_inverted (b : Bool) (D : DemodState) : nextPhase (!b) D.inverted = nextPhase b D := by
  unfold nextPhase advancedPhase
  rw [show D.inverted.sampled_bits = ~~~D.sampled_bits from rfl, shiftIn_not, edgeFound_not]
  rfl

/-- Settles O24: inverted decisions have the same edges, in the raw decisions and in the synchronized ones. -/
theorem invertedDecisionsDecodeTheSame : Obligations.InvertedDecisionsDecodeTheSame := by
  intro b D
  show bitSync (!b) D.inverted = ((bitSync b D).1, (bitSync b D).2.inverted)
  have hphase := nextPhase_inverted b D
  have h := bitSync_cases b D
  have hinv := bitSync_cases (!b) D.inverted
  dsimp only at h hinv
  rw [← nextPhase, hphase] at hinv
  rw [← nextPhase] at h
  split at h
  case isTrue hwrap =>
    rw [if_pos hwrap] at hinv
    rw [hinv, h]
    simp [DemodState.inverted, shiftIn_not, nrziDecode, edgeFound_not]
  case isFalse hlt =>
    rw [if_neg hlt] at hinv
    rw [hinv, h]
    simp [DemodState.inverted, shiftIn_not]

end Sys2Proof.Machine
end

section
/-! `TX_TICK`: the idle tick, the fetch, the answer, the countdown, the slot, and the stop. -/

namespace Sys2Proof.Machine

/-- Settles O32. -/
theorem idleTickChangesNothing : Obligations.IdleTickChangesNothing := by
  intro s h
  have htick : txTick s.params s.S.M s.S.TXF = (idleResponse s.params, s.S.M, s.S.TXF) := by simp [txTick, h]
  rw [exec_txTick, htick]; rfl

/-- A tick that starts a slot sends the byte that is ready, and stays active. -/
theorem exec_txTick_sends {s : State} {M : ModState} {f : List Byte} (hs : s.S.M.sending = true)
    (hc : s.S.M.sample_countdown = 0) (hr : ready s.S.M s.S.TXF = (true, M, f)) :
    ∃ m r, exec .txTick s = .next (s.answer (s.S.withTx m f) r) ∧ m.current_byte = M.current_byte ∧
      m.bit_stuff_enabled = M.bit_stuff_enabled ∧ m.sending = true := by
  obtain ⟨hbyte, hst, hsend, -⟩ := sendBit_keeps s.params M
  exact ⟨_, _, exec_txTick_of_ready hs hc hr, hbyte, hst, hsend.trans ((ready_true_keeps hr).1.trans hs)⟩

theorem not_isControl (b : Byte) : (!isControl b) = (b != 0x7E && b != 0x7F) := Bool.not_or _ _

/-- Settles O34, by the three cases of the fetch. -/
theorem fetchUnescapes : Obligations.FetchUnescapes := by
  intro s b rest hs hc hm hf
  have hready := ready_of_mask_eq_zero hm s.S.TXF
  rw [hf] at hready
  by_cases hb : b = 0x1B
  · subst hb
    cases rest with
    | nil =>
      rw [fetch_loneEscape, ← hf] at hready
      exact ⟨_, exec_txTick_of_not_ready hs hc hready, rfl, rfl, rfl, rfl, fun h => absurd rfl h,
        fun _ _ _ h => (nomatch h), fun _ _ => ⟨rfl, rfl, rfl⟩⟩
    | cons c rest =>
      rw [fetch_escaped, ← hf] at hready
      obtain ⟨m, r, he, hbyte, hst, hsend⟩ := exec_txTick_sends hs hc hready
      refine ⟨_, he, rfl, rfl, rfl, rfl, fun h => absurd rfl h, fun c' rest' _ h => ?_, fun _ h => (nomatch h)⟩
      cases h
      exact ⟨rfl, hbyte, hst, hsend⟩
  · rw [fetch_plain _ hb, ← hf] at hready
    obtain ⟨m, r, he, hbyte, hst, hsend⟩ := exec_txTick_sends hs hc hready
    exact ⟨_, he, rfl, rfl, rfl, rfl, fun _ => ⟨rfl, hbyte, hst.trans (not_isControl b), hsend⟩,
      fun _ _ h => absurd h hb, fun h => absurd h hb⟩

/-- Settles O40: an idle outcome answers the idle sample, the DDS step of an active one its sine. -/
theorem tickAnswersTheSineOrTheIdleSample : Obligations.TickAnswersTheSineOrTheIdleSample := by
  intro s
  refine ⟨_, exec_txTick s, ?_⟩
  rw [State.answer_S, Block.withTx_M, State.answer_resp]
  obtain ⟨M', f', -, ⟨hidle, e⟩ | ⟨hactive, e⟩⟩ := txTick_idle_or_ddsStep s.params s.S.M s.S.TXF <;> rw [e]
  · simp [hidle, idleResponse]
  · simp [hactive, ddsStep]

/-! ## The countdown -/

/-- A tick that ends idle leaves the countdown; any other reloads it at 0, and lowers it by one. -/
theorem txTick_countdown (p : Params) (M : ModState) (f : List Byte) :
    ((txTick p M f).2.1.sending = false ∧ (txTick p M f).2.1.sample_countdown = M.sample_countdown) ∨
    ((txTick p M f).2.1.sending = true ∧ (txTick p M f).2.1.sample_countdown =
      (if M.sample_countdown = 0 then p.spbTx else M.sample_countdown) - 1) := by
  obtain ⟨hs, e⟩ | ⟨hs, hc, e⟩ | ⟨-, -, M', f', hr, e⟩ | ⟨hs, hc, M', f', hr, e⟩ := txTick_cases p M f <;> rw [e]
  · exact .inl ⟨hs, rfl⟩
  · exact .inr ⟨hs, by rw [if_neg hc]; rfl⟩
  · obtain ⟨-, -, ⟨-, rfl⟩ | ⟨-, rfl⟩⟩ := ready_false hr <;> exact .inl ⟨rfl, rfl⟩
  · have hsend := (sendBit_keeps p M').2.2.1.trans ((ready_true_keeps hr).1.trans hs)
    exact .inr ⟨hsend, by rw [if_pos hc]; rfl⟩

/-- Settles O41. -/
theorem countdownReloadsAndFalls : Obligations.CountdownReloadsAndFalls := by
  refine ⟨fun s t hv he hsend => ?reload, fun p hv => ⟨spbTx_lt_width p, ?least⟩, by decide, fun s t he hfits => ?fits⟩
  case least => exact fun _ hw => countdownWidth_le (valid_parts hv).1.2 hw
  case reload =>
    have hspb := (valid_parts hv).1.2
    rw [exec_txTick] at he
    cases he
    obtain ⟨hidle, -⟩ | ⟨-, hc⟩ := txTick_countdown s.params s.S.M s.S.TXF
    · exact absurd (hsend.symm.trans hidle) (by decide)
    · rw [State.answer_S, Block.withTx_M, hc]
      split <;> omega
  case fits =>
    have hspb := spbTx_lt_width s.params
    rw [exec_txTick] at he
    cases he
    rw [State.answer_S, Block.withTx_M, State.answer_params]
    obtain ⟨-, hc⟩ | ⟨-, hc⟩ := txTick_countdown s.params s.S.M s.S.TXF <;> rw [hc]
    · exact hfits
    · split <;> omega

/-- A tick inside a slot is the DDS step alone. -/
theorem exec_txTick_in_slot {s : State} (hs : s.S.M.sending = true) (hc : s.S.M.sample_countdown ≠ 0) :
    exec .txTick s = .next (s.answer { s.S with M := (ddsStep s.S.M).2 } (ddsStep s.S.M).1) := by
  have htick : txTick s.params s.S.M s.S.TXF = ((ddsStep s.S.M).1, (ddsStep s.S.M).2, s.S.TXF) := by
    simp [txTick, slotWork, hs, hc]
  rw [exec_txTick, htick]; rfl

/-- The phase after one increment and `k` more. -/
theorem phase_add_mul (acc inc : Phase) (k : Nat) :
    acc + inc + BitVec.ofNat 9 (k * inc.toNat) = acc + BitVec.ofNat 9 ((k + 1) * inc.toNat) := by
  rw [Nat.succ_mul, BitVec.ofNat_add, BitVec.ofNat_toNat, BitVec.setWidth_eq, BitVec.add_assoc,
    BitVec.add_comm inc]

/-- Settles O42, by induction on the number of ticks. -/
theorem slotHoldsItsTone : Obligations.SlotHoldsItsTone := by
  intro k
  induction k with
  | zero => exact fun s _ _ => ⟨[], rfl, by simp, by simp⟩
  | succ k ih =>
    intro s hs hk
    have he := exec_txTick_in_slot hs (by omega)
    obtain ⟨es, hr, hresp, hfinish⟩ := ih (s.answer { s.S with M := (ddsStep s.S.M).2 } (ddsStep s.S.M).1) hs
      (Nat.le_sub_one_of_lt hk)
    refine ⟨⟨.txTick, s, _⟩ :: es, ?run, ?resp, hfinish.trans ?state⟩
    case run => rw [ticksEvents, List.replicate_succ, run_cons_of_next he, ← ticksEvents, hr]; rfl
    case resp =>
      intro e hmem
      obtain rfl | hmem := List.mem_cons.1 hmem
      · exact ⟨_, rfl⟩
      · exact hresp e hmem
    case state =>
      simp only [State.answer_S, ddsStep, advanceAcc, phase_add_mul, Nat.sub_sub, Nat.add_comm 1 k]

/-- Settles O43: a tick stops the modulator only at a fetch that finds no byte to send. -/
theorem modulatorStopsOnlyWithAnEmptyFifo : Obligations.ModulatorStopsOnlyWithAnEmptyFifo := by
  intro i s t hinit he hon hoff
  by_cases htick : i = .txTick
  · subst htick
    rw [exec_txTick] at he
    cases he
    rw [State.answer_S, Block.withTx_M] at hoff
    rw [State.answer_S, Block.withTx_TXF]
    obtain ⟨hs, -⟩ | ⟨hs, -, e⟩ | ⟨-, hc, M', f', hr, e⟩ | ⟨hs, -, M', f', hr, e⟩ :=
      txTick_cases s.params s.S.M s.S.TXF
    · exact absurd (hon.symm.trans hs) (by decide)
    · rw [e] at hoff
      exact absurd (hs.symm.trans hoff) (by decide)
    · obtain ⟨hm, hempty, hf⟩ := ready_false hr
      exact ⟨rfl, hc, hm, hf.imp And.left And.left, by rw [e, hempty]⟩
    · have hsend := (sendBit_keeps s.params M').2.2.1.trans ((ready_true_keeps hr).1.trans hs)
      rw [e] at hoff
      exact absurd (hsend.symm.trans hoff) (by decide)
  · have hM : t.S.M.sending = true := by
      by_cases hstart : i = .txStart
      · subst hstart
        obtain ⟨-, rfl⟩ | ⟨hs, -⟩ := exec_txStart_cases he
        · exact hon
        · exact absurd (hon.symm.trans hs) (by decide)
      · rw [exec_keeps_modulator he htick hstart hinit, hon]
    exact absurd (hM.symm.trans hoff) (by decide)

end Sys2Proof.Machine
end

section
/-! The sine table and the tone increments. -/

namespace Sys2Proof.Machine

theorem quarterIndex_val (idx : Phase) :
    (quarterIndex idx).val = if 128 ≤ idx.toNat % 256 then 255 - idx.toNat % 256 else idx.toNat % 256 := by
  unfold quarterIndex
  dsimp only
  split <;> rfl

/-- The second half wave reads the cells of the first. -/
theorem quarterIndex_add_half (idx : Phase) : quarterIndex (idx + 256) = quarterIndex idx := by
  have hmod : (idx + 256).toNat % 256 = idx.toNat % 256 := by
    rw [BitVec.toNat_add]
    exact (Nat.mod_mod_of_dvd _ (by decide)).trans (Nat.add_mod_right _ 256)
  rw [Fin.ext_iff, quarterIndex_val, quarterIndex_val, hmod]

/-- The second quarter reads the cells of the first, backwards. -/
theorem quarterIndex_mirror {idx : Phase} (h : idx.toNat ≤ 255) : quarterIndex (255 - idx) = quarterIndex idx := by
  have hsub : (255 - idx).toNat = 255 - idx.toNat := BitVec.toNat_sub_of_le (BitVec.le_def.2 h)
  rw [Fin.ext_iff, quarterIndex_val, quarterIndex_val, hsub]
  split_ifs <;> omega

/-- Settles O44. -/
theorem sineWaveSymmetry : Obligations.SineWaveSymmetry := by
  refine ⟨fun idx => ?halves, fun idx h => ?quarters, fun i j hij => ?rising, by decide, by decide⟩
  case halves =>
    have hmirror : (255 - sinRom (quarterIndex idx)).toNat = 255 - (sinRom (quarterIndex idx)).toNat :=
      BitVec.toNat_sub_of_le (BitVec.le_def.2 (Nat.le_of_lt_succ (sinRom _).isLt))
    have hlt := (sinRom (quarterIndex idx)).isLt
    have hidx := idx.isLt
    have hhalf : 256 ≤ (idx + 256).toNat ↔ ¬ 256 ≤ idx.toNat := by
      rw [BitVec.toNat_add, show (256 : Phase).toNat = 256 from rfl]
      omega
    unfold sinSample
    dsimp only
    rw [quarterIndex_add_half]
    simp only [hhalf]
    split_ifs <;> omega
  case quarters =>
    have hsub : (255 - idx).toNat = 255 - idx.toNat := BitVec.toNat_sub_of_le (BitVec.le_def.2 h)
    unfold sinSample
    dsimp only
    rw [quarterIndex_mirror h, if_neg (by omega), if_neg (by omega)]
  case rising =>
    have hmono : Monotone fun i : Fin 128 => (sinRom i).toNat := Fin.monotone_iff_le_succ.2 (by decide)
    exact hmono hij

/-- Rounding to the nearest: the multiple of `b` is within half of `b` (00_scope.md R9). -/
theorem divRound_mul_bounds (a : Nat) {b : Nat} (hb : 0 < b) :
    2 * (divRound a b * b) ≤ 2 * a + b ∧ 2 * a < 2 * (divRound a b * b) + b := by
  have hdiv := Nat.div_add_mod (a + b / 2) b
  have hmod := Nat.mod_lt (a + b / 2) hb
  rw [Nat.mul_comm, ← divRound] at hdiv
  omega

/-- Settles O45. -/
theorem toneIncrementsAreWithinHalfAStep : Obligations.ToneIncrementsAreWithinHalfAStep := by
  refine ⟨fun a b => divRound_mul_bounds a, fun p hp => ?_⟩
  have hrate : 0 < p.dacSampleRate := by
    have hspb : 1 ≤ p.dacSampleRate / 1200 := (valid_parts hp).1.2
    omega
  rw [markInc_toNat hp, spaceInc_toNat hp]
  obtain ⟨hmark, hmark'⟩ := divRound_mul_bounds (512 * 1200) hrate
  obtain ⟨hspace, hspace'⟩ := divRound_mul_bounds (512 * 2200) hrate
  exact ⟨hmark, hmark', hspace, hspace'⟩

end Sys2Proof.Machine
end

section
/-! The host's operations with their whole results, and `STATUS` along the agents' operations. -/

namespace Sys2Proof.Machine

/-- Settles O46. -/
theorem txPushAppendsOrRejects : Obligations.TxPushAppendsOrRejects :=
  fun _ b => ⟨exec_txPush_room b, exec_txPush_full b⟩

/-- Settles O47. -/
theorem rxPopRemovesTheOldest : Obligations.RxPopRemovesTheOldest :=
  fun _ => ⟨fun _ _ => exec_rxPop_cons, exec_rxPop_empty⟩

/-- A `TX_START` leaves the modulator active. -/
theorem sending_of_exec_txStart {s t : State} (h : exec .txStart s = .next t) : t.S.M.sending = true := by
  obtain ⟨hs, rfl⟩ | ⟨-, rfl⟩ := exec_txStart_cases h
  · exact hs
  · rfl

/-- A `TX_START` answers `ok = 1`. -/
theorem resp_of_exec_txStart {s t : State} (h : exec .txStart s = .next t) : t.resp = some Response.done := by
  obtain ⟨-, rfl⟩ | ⟨-, rfl⟩ := exec_txStart_cases h <;> rfl

/-- Settles O48: the second of two finds an active modulator. -/
theorem txStartStartsAnIdleModulator : Obligations.TxStartStartsAnIdleModulator := by
  refine fun s => ⟨exec_txStart_idle, exec_txStart_active, fun t u ht hu => ?_⟩
  rw [exec_txStart_active (sending_of_exec_txStart ht)] at hu
  cases hu
  rw [State.answer, ← resp_of_exec_txStart ht]

/-- `STATUS` has no bit above the five. -/
theorem statusWord_high (p : Params) (B : Block) {k : Nat} (hk : 5 ≤ k) : (statusWord p B).getLsbD k = false := by
  have hbit : ∀ (c : Bool) (v : Byte), v.getLsbD k = false → (bitIf c v).getLsbD k = false := by
    intro c v hv
    cases c
    · exact BitVec.getLsbD_zero
    · exact hv
  have hpow : ∀ v : Byte, v.toNat < 2 ^ 5 → v.getLsbD k = false := fun v hv =>
    Nat.testBit_lt_two_pow (hv.trans_le (Nat.pow_le_pow_right (by decide) hk))
  simp only [statusWord, BitVec.getLsbD_or, Bool.or_eq_false_iff]
  exact ⟨⟨⟨⟨hbit _ _ (hpow _ (by decide)), hbit _ _ (hpow _ (by decide))⟩, hbit _ _ (hpow _ (by decide))⟩,
    hbit _ _ (hpow _ (by decide))⟩, hbit _ _ (hpow _ (by decide))⟩

/-- Settles O49. -/
theorem statusReportsTheFiveFacts : Obligations.StatusReportsTheFiveFacts := by
  intro s
  obtain ⟨h0, h1, h2, h3, h4⟩ := statusWord_bits s.params s.S
  refine ⟨statusWord s.params s.S, exec_rdStatus s, ?_, ?_, ?_, ?_, ?_, statusWord_high _ _ (by decide),
    statusWord_high _ _ (by decide), statusWord_high _ _ (by decide)⟩
  · rw [h0, Bool.not_eq_true', ← Bool.not_eq_true, fifoEmpty_iff]
  · rw [h1, fifoFull_iff]
  · rw [h2, Bool.not_eq_true', ← Bool.not_eq_true, fifoFull_iff]
  · rw [h3, fifoEmpty_iff]
  · rw [h4]

/-- Settles O50: at a capacity of at least 2 the empty FIFOs are not full. -/
theorem initGivesTheResetState : Obligations.InitGivesTheResetState := by
  refine fun s => ⟨exec_init s, fun hv => ?_⟩
  obtain ⟨-, -, -, -, hrx, htx⟩ := valid_parts hv
  have hrx' : fifoFull s.params.rxFifoCap [] = false := Bool.eq_false_iff.2 fun h => by simp at h; omega
  have htx' : fifoFull s.params.txFifoCap [] = false := Bool.eq_false_iff.2 fun h => by simp at h; omega
  simp only [statusWord, State.resetWith, Block.reset, hrx', htx']
  decide

/-- Settles O51. -/
theorem nopChangesNothing : Obligations.NopChangesNothing := exec_nop

/-- Settles O52. -/
theorem resetStateIsTheTable : Obligations.ResetStateIsTheTable :=
  ⟨fun _ => rfl, by decide, rfl, rfl, rfl⟩

/-- A FIFO that keeps what it stores stays nonempty, and stays full. -/
theorem KeepsStored.status {cap : Nat} {f f' : List Byte} (h : KeepsStored cap f f') :
    ((!fifoEmpty f) = true → (!fifoEmpty f') = true) ∧ (fifoFull cap f = true → fifoFull cap f' = true) := by
  constructor
  · simp only [Bool.not_eq_true', ← Bool.not_eq_true, fifoEmpty_iff]
    rintro hne rfl
    exact hne (List.prefix_nil.1 h.1)
  · simp only [fifoFull_iff]
    intro hfull
    rw [h.eq_of_full hfull, hfull]

/-- A FIFO within its capacity that gives bytes away stays with room, and stays empty. -/
theorem status_of_suffix {cap : Nat} {bs f f' : List Byte} (h : f = bs ++ f') (hle : f.length ≤ cap) :
    ((!fifoFull cap f) = true → (!fifoFull cap f') = true) ∧ (fifoEmpty f = true → fifoEmpty f' = true) := by
  subst h
  rw [List.length_append] at hle
  constructor
  · simp only [Bool.not_eq_true', ← Bool.not_eq_true, fifoFull_iff, List.length_append]
    omega
  · simp only [fifoEmpty_iff, List.append_eq_nil_iff]
    exact And.right

/-- What keeps each of the four FIFO bits once it reads 1, and `SENDING` once it reads 0. -/
theorem statusWord_one_way {p : Params} {B C : Block}
    (h0 : (!fifoEmpty B.RXF) = true → (!fifoEmpty C.RXF) = true)
    (h1 : fifoFull p.rxFifoCap B.RXF = true → fifoFull p.rxFifoCap C.RXF = true)
    (h2 : (!fifoFull p.txFifoCap B.TXF) = true → (!fifoFull p.txFifoCap C.TXF) = true)
    (h3 : fifoEmpty B.TXF = true → fifoEmpty C.TXF = true) (h4 : B.M.sending = false → C.M.sending = false) :
    (∀ k, k < 4 → (statusWord p B).getLsbD k = true → (statusWord p C).getLsbD k = true) ∧
    ((statusWord p B).getLsbD 4 = false → (statusWord p C).getLsbD 4 = false) := by
  obtain ⟨b0, b1, b2, b3, b4⟩ := statusWord_bits p B
  obtain ⟨c0, c1, c2, c3, c4⟩ := statusWord_bits p C
  refine ⟨fun k hk => ?_, by rw [b4, c4]; exact h4⟩
  match k, hk with
  | 0, _ => rw [b0, c0]; exact h0
  | 1, _ => rw [b1, c1]; exact h1
  | 2, _ => rw [b2, c2]; exact h2
  | 3, _ => rw [b3, c3]; exact h3

/-- Settles O53: the receiver only adds to its FIFO, the transmitter only takes from its own, and no tick starts an idle
modulator. -/
theorem statusMovesOneWayWithoutTheHost : Obligations.StatusMovesOneWayWithoutTheHost := by
  intro i s t hi hinv he
  have hp := exec_params he
  rw [hp]
  obtain rfl | ⟨a, rfl⟩ := hi
  · rw [exec_txTick] at he
    cases he
    obtain ⟨bs, hbs⟩ := txTick_fifo s.params s.S.M s.S.TXF
    obtain ⟨h2, h3⟩ := status_of_suffix hbs hinv.txFifo
    exact statusWord_one_way id id h2 h3 fun hidle => by simp [txTick, hidle]
  · obtain ⟨h0, h1⟩ := (exec_keepsStored_rx (by simp) (by simp) he).status
    obtain ⟨b, x, y, rfl⟩ := exec_rxSample_cases he
    exact statusWord_one_way h0 h1 id id id

end Sys2Proof.Machine
end

section
/-! Two operations in either order: the two agents, and the host and an agent on one FIFO. -/

namespace Sys2Proof.Machine

/-- Settles O54: neither agent reads what the other writes. -/
theorem rxSampleAndTxTickCommute : Obligations.RxSampleAndTxTickCommute := by
  intro s arg h
  obtain ⟨x, y, hx, hy, hrx⟩ := exec_rxSample_of_inv arg h
  have htick := exec_txTick s
  exact ⟨_, _, _, _, hrx, exec_txTick _, htick,
    exec_rxSample_of_taps (s := s.answer
      (s.S.withTx (txTick s.params s.S.M s.S.TXF).2.1 (txTick s.params s.S.M s.S.TXF).2.2) _) hx hy,
    rfl, rfl, rfl, rfl, rfl⟩

/-! ## The RX FIFO -/

theorem escapeByte_length_le (v : Byte) : (escapeByte v).length ≤ 2 := by
  unfold escapeByte; split <;> simp

/-- What a bit does to a FIFO with room for it: it appends the same bytes, whatever the FIFO holds. -/
theorem hdlcRx_of_room (bit : Bool) (H : HdlcRxState) : ∃ H' w, w.length ≤ 2 ∧
    ∀ (cap : Nat) (f : List Byte), f.length + w.length ≤ cap → hdlcRx cap bit H f = (H', f ++ w) := by
  by_cases hflag : isFlag (shiftIn H.demod_bits bit) = true
  · refine ⟨⟨0x7E, true, 0, 0⟩, [0x7E], by simp, fun cap f hroom => ?_⟩
    rw [hdlcRx_of_flag hflag, if_neg (by simp at hroom; omega)]
  by_cases habort : isAbort (shiftIn H.demod_bits bit) = true
  · exact ⟨_, [], by simp, fun cap f _ => by rw [hdlcRx_of_abort habort, List.append_nil]⟩
  rw [Bool.not_eq_true] at hflag habort
  by_cases hdrop : H.in_sync = false ∨ isStuffed (shiftIn H.demod_bits bit) = true
  · exact ⟨_, [], by simp, fun cap f _ => by rw [hdlcRx_of_dropped hflag habort hdrop, List.append_nil]⟩
  obtain ⟨hsync, hst⟩ := not_or.1 hdrop
  rw [Bool.not_eq_false] at hsync
  rw [Bool.not_eq_true] at hst
  by_cases hidx : H.bit_index = 7
  · refine ⟨⟨shiftIn H.demod_bits bit, true, 0, 0⟩, escapeByte (shiftInTop H.current_byte bit), escapeByte_length_le _,
      fun cap f hroom => ?_⟩
    rw [hdlcRx_of_data_complete hsync ⟨hflag, habort, hst⟩ hidx, pushByte_of_room true hroom]
  · exact ⟨_, [], by simp, fun cap f _ => by
      rw [hdlcRx_of_data_incomplete hsync ⟨hflag, habort, hst⟩ hidx, List.append_nil]⟩

theorem deframe_of_room (e : Option Bool) (H : HdlcRxState) : ∃ H' w, w.length ≤ 2 ∧
    ∀ (cap : Nat) (f : List Byte), f.length + w.length ≤ cap → deframe cap e H f = (H', f ++ w) := by
  cases e with
  | none => exact ⟨H, [], by simp, fun cap f _ => by rw [deframe, List.append_nil]⟩
  | some bit => exact hdlcRx_of_room bit H

/-- `RX_POP` and a sample with room for what it pushes, in either order. -/
theorem rxPop_rxSample_commute (s : State) (arg : Byte) (h : s.Inv) (hne : s.S.RXF ≠ [])
    (hlt : s.S.RXF.length < s.params.rxFifoCap)
    (htwo : (rxWanted arg s.S).length = 2 → s.S.RXF.length + 2 ≤ s.params.rxFifoCap) :
    ∃ t t' u u', exec .rxPop s = .next t ∧ exec (.rxSample arg) t = .next t' ∧
      exec (.rxSample arg) s = .next u ∧ exec .rxPop u = .next u' ∧
      t'.S = u'.S ∧ t.resp = u'.resp ∧ t'.resp = u.resp := by
  obtain ⟨x, y, hx, hy, hrx⟩ := exec_rxSample_of_inv arg h
  obtain ⟨H', w, hw, hroom⟩ := deframe_of_room (bitSync (decide (0 < y.toInt)) (s.S.D.shiftTaps x y)).1 s.S.H
  have hwanted : rxWanted arg s.S = w := by
    rw [rxWanted, rxSample_of_taps _ hx hy, hroom _ _ (Nat.add_le_add_left hw _)]
    exact List.drop_left
  have hle : s.S.RXF.length + w.length ≤ s.params.rxFifoCap := by
    rw [hwanted] at htwo
    omega
  obtain ⟨b, rest, hf⟩ := List.exists_cons_of_ne_nil hne
  have hle' : rest.length + w.length ≤ s.params.rxFifoCap := by
    rw [hf, List.length_cons] at hle
    omega
  have hpop := exec_rxPop_cons hf
  have hrx' := exec_rxSample_of_taps (s := s.answer (s.S.withRXF rest) ⟨true, b⟩) hx hy
  simp only [hroom _ _ hle] at hrx
  simp only [State.answer_params, State.answer_S, Block.withRXF_RXF, Block.withRXF_D, Block.withRXF_H,
    hroom _ _ hle'] at hrx'
  exact ⟨_, _, _, _, hpop, hrx', hrx, exec_rxPop_cons (b := b) (rest := rest ++ w) (by simp [hf]), rfl, rfl, rfl⟩

/-! ## The TX FIFO -/

/-- A fetch that finds a byte to send does not see the young end of the FIFO. -/
theorem fetch_append (M : ModState) {f : List Byte} (b : Byte) (hne : f ≠ []) (hesc : f ≠ [0x1B]) :
    fetch M (f ++ [b]) = ((fetch M f).1, (fetch M f).2.1, (fetch M f).2.2 ++ [b]) := by
  obtain ⟨h, -⟩ | ⟨h, -⟩ | ⟨c, rest, rfl, e⟩ | ⟨c, rest, hc, rfl, e⟩ := fetch_cases M f
  · exact absurd h hne
  · exact absurd h hesc
  · rw [e]; exact fetch_escaped M c _
  · rw [e]; exact fetch_plain M hc _

theorem ready_append (M : ModState) {f : List Byte} (b : Byte) (h : M.bit_mask = 0 → f ≠ [] ∧ f ≠ [0x1B]) :
    ready M (f ++ [b]) = ((ready M f).1, (ready M f).2.1, (ready M f).2.2 ++ [b]) := by
  by_cases hm : M.bit_mask = 0
  · rw [ready_of_mask_eq_zero hm, ready_of_mask_eq_zero hm]
    exact fetch_append M b (h hm).1 (h hm).2
  · rw [ready_of_mask_ne_zero hm, ready_of_mask_ne_zero hm]

theorem startSlot_append (p : Params) (M : ModState) {f : List Byte} (b : Byte)
    (h : M.bit_mask = 0 → f ≠ [] ∧ f ≠ [0x1B]) :
    startSlot p M (f ++ [b]) = ((startSlot p M f).1, (startSlot p M f).2.1, (startSlot p M f).2.2 ++ [b]) := by
  unfold startSlot
  rw [ready_append M b h]
  obtain ⟨ok, M', f'⟩ := ready M f
  cases ok <;> rfl

/-- A tick for which no byte is missing does not see the young end of the FIFO. -/
theorem txTick_append (p : Params) (M : ModState) {f : List Byte} (b : Byte)
    (h : M.sending = true → M.sample_countdown = 0 → M.bit_mask = 0 → f ≠ [] ∧ f ≠ [0x1B]) :
    txTick p M (f ++ [b]) = ((txTick p M f).1, (txTick p M f).2.1, (txTick p M f).2.2 ++ [b]) := by
  unfold txTick slotWork
  cases hs : M.sending
  · rfl
  by_cases hc : M.sample_countdown = 0
  · simp only [hc, if_true, startSlot_append p M b (h hs hc)]
    obtain ⟨ok, M', f'⟩ := startSlot p M f
    cases ok <;> rfl
  · simp only [hc, if_true, if_false]

/-- `TX_PUSH` and a tick for which no byte is missing, in either order. -/
theorem txPush_txTick_commute (s : State) (b : Byte) (hne : s.S.TXF ≠ [])
    (hlt : s.S.TXF.length < s.params.txFifoCap)
    (hesc : ¬ (s.S.TXF = [0x1B] ∧ s.S.M.sending = true ∧ s.S.M.sample_countdown = 0 ∧ s.S.M.bit_mask = 0x00)) :
    ∃ t t' u u', exec (.txPush b) s = .next t ∧ exec .txTick t = .next t' ∧
      exec .txTick s = .next u ∧ exec (.txPush b) u = .next u' ∧
      t'.S = u'.S ∧ t.resp = u'.resp ∧ t'.resp = u.resp := by
  have hap := txTick_append s.params s.S.M b fun hs hc hm => ⟨hne, fun e => hesc ⟨e, hs, hc, hm⟩⟩
  obtain ⟨bs, hbs⟩ := txTick_fifo s.params s.S.M s.S.TXF
  have hlen := congrArg List.length hbs
  rw [List.length_append] at hlen
  refine ⟨_, _, _, _, exec_txPush_room b hlt.ne, exec_txTick _, exec_txTick s, exec_txPush_room b ?room, ?state, rfl,
    ?resp⟩
  case room =>
    show (txTick s.params s.S.M s.S.TXF).2.2.length ≠ s.params.txFifoCap
    omega
  case state =>
    show ((s.S.withTXF (s.S.TXF ++ [b])).withTx _ _) = ((s.S.withTx _ _).withTXF _)
    simp only [State.answer_params, State.answer_S, Block.withTXF_M, Block.withTXF_TXF, hap]
    rfl
  case resp =>
    simp only [State.answer_params, State.answer_S, State.answer_resp, Block.withTXF_M, Block.withTXF_TXF, hap]

/-- A lone escape due for a fetch: the byte pushed first is sent behind it, the byte pushed after the tick is not. -/
theorem txPush_txTick_loneEscape (s : State) (b : Byte) (hs : s.S.M.sending = true) (hc : s.S.M.sample_countdown = 0)
    (hm : s.S.M.bit_mask = 0x00) (hf : s.S.TXF = [0x1B]) (hcap : 2 ≤ s.params.txFifoCap) :
    ∃ t t' u u', exec (.txPush b) s = .next t ∧ exec .txTick t = .next t' ∧
      exec .txTick s = .next u ∧ exec (.txPush b) u = .next u' ∧
      t'.S.M.sending = true ∧ t'.S.M.current_byte = b ∧ t'.S.TXF = [] ∧
      u'.S.M.sending = false ∧ u'.S.TXF = [b] := by
  have hpush := exec_txPush_room b (s := s) (by rw [hf, List.length_singleton]; omega)
  have hready : ready s.S.M (s.S.TXF ++ [b]) = (true, s.S.M.load b true, []) := by
    rw [ready_of_mask_eq_zero hm, hf]
    exact fetch_escaped s.S.M b []
  obtain ⟨m, r, htick, hbyte, -, hsend⟩ := exec_txTick_sends
    (s := s.answer (s.S.withTXF (s.S.TXF ++ [b])) Response.done) hs hc hready
  have hlone := (ready_of_mask_eq_zero hm [0x1B]).trans (fetch_loneEscape s.S.M)
  rw [← hf] at hlone
  exact ⟨_, _, _, _, hpush, htick, exec_txTick_of_not_ready hs hc hlone, exec_txPush_room b (by simp; omega),
    hsend, hbyte, rfl, rfl, rfl⟩

/-- Settles O55. -/
theorem hostAndAgentOnOneFifo : Obligations.HostAndAgentOnOneFifo :=
  ⟨rxPop_rxSample_commute, txPush_txTick_commute, txPush_txTick_loneEscape⟩

end Sys2Proof.Machine
end

section
/-! The host procedures `write` and `flush` against the block, with any doings of the two agents in between
(45_host_fifo_ops.md R263, R264). -/

namespace Sys2Proof.Machine

/-! ## The agents between two operations of the host -/

/-- An operation of one of the two agents (20_memory.md R84). -/
def isAgentOp (i : Instr) : Prop := i = .txTick ∨ ∃ a, i = .rxSample a

theorem isAgentOp.ne_init {i : Instr} (h : isAgentOp i) : i ≠ .init := by
  obtain rfl | ⟨a, rfl⟩ := h <;> simp

/-- The events of a run are those of its operations. -/
theorem run_ops : ∀ {is : List Instr} {s : State} {es : List Event}, run is s = some es → es.map (·.op) = is
  | [], _, _, h => by cases h; rfl
  | i :: is, s, es, h => by
    obtain ⟨t, rest, -, hr, rfl⟩ := run_cons_some h
    rw [List.map_cons, run_ops hr]

theorem agentOps_of_run {is : List Instr} {s : State} {es : List Event} (his : ∀ i ∈ is, isAgentOp i)
    (h : run is s = some es) : ∀ e ∈ es, isAgentOp e.op := fun _ he =>
  his _ (run_ops h ▸ List.mem_map_of_mem he)

/-- What every operation of the agents keeps, their runs keep. -/
theorem run_agents_keeps {P : State → Prop} (hstep : ∀ {i s t}, isAgentOp i → exec i s = .next t → P s → P t) :
    ∀ {is : List Instr} {s : State} {es : List Event}, (∀ i ∈ is, isAgentOp i) → run is s = some es → P s →
      P (finish s es)
  | [], _, _, _, h, hP => by cases h; exact hP
  | i :: is, s, es, his, h, hP => by
    obtain ⟨t, rest, he, hr, rfl⟩ := run_cons_some h
    rw [finish_cons]
    exact run_agents_keeps hstep (fun j hj => his j (List.mem_cons_of_mem _ hj)) hr
      (hstep (his i List.mem_cons_self) he hP)

/-- The agents accept no byte for the TX FIFO. -/
theorem txAccepted_agents {es : List Event} (h : ∀ e ∈ es, isAgentOp e.op) : es.flatMap Event.txAccepted = [] := by
  refine List.flatMap_eq_nil_iff.2 fun e he => ?_
  obtain ⟨op, before, after⟩ := e
  obtain hop | ⟨a, hop⟩ := h _ he <;> simp only at hop <;> subst hop <;> rfl

/-- The agents never lengthen the TX FIFO. -/
theorem exec_agent_txFifo {i : Instr} {s t : State} (hi : isAgentOp i) (he : exec i s = .next t) :
    t.S.TXF.length ≤ s.S.TXF.length := by
  obtain rfl | ⟨a, rfl⟩ := hi
  · have hlen := congrArg List.length (exec_txTick_fetched he)
    rw [List.length_append] at hlen
    omega
  · rw [exec_keeps_txFifo he (by simp) (by simp) (by simp)]

/-! ## `write` -/

/-- With every response `ok` a `write` pushes each byte and starts the modulator after it. -/
theorem events_next : ∀ (bs : List Byte) (k : Nat) (resps : List Response), 2 * bs.length ≤ resps.length →
    (∀ r ∈ resps, r.ok = true) → WriteProc.events resps (.next .reissue k bs) = writeEvents bs
  | [], _, [], _, _ => rfl
  | [], _, _ :: _, _, _ => rfl
  | b :: bs, k, r1 :: r2 :: resps, hlen, hok => by
    have hpush : (WriteProc.next .reissue k (b :: bs)).after r1 = ⟨.reissue, .starting bs, k + 1⟩ := by
      simp [WriteProc.next, WriteProc.after, hok r1 (by simp)]
    have htail := events_next bs (k + 1) resps (by simp at hlen; omega) fun r hr => hok r (by simp [hr])
    show .txPush b :: WriteProc.events (r2 :: resps) ((WriteProc.next .reissue k (b :: bs)).after r1) = _
    rw [hpush]
    exact congrArg (fun es => .txPush b :: .txStart :: es) htail
  | b :: bs, _, [], hlen, _ => absurd hlen (by simp)
  | b :: bs, _, [_], hlen, _ => absurd hlen (by simp; omega)

/-- The TX FIFO is within its capacity, and has room where a `write` pushes after a poll. -/
def WriteProc.hasRoom (w : WriteProc) (s : State) : Prop :=
  s.S.TXF.length ≤ s.params.txFifoCap ∧
  ∀ b rest, w.stage = .pushing b rest → w.form = .poll → s.S.TXF.length < s.params.txFifoCap

/-- A stage that pushes nothing asks for no room. -/
theorem WriteProc.hasRoom_of_not_pushing {w : WriteProc} {s : State} (h : s.S.TXF.length ≤ s.params.txFifoCap)
    (hstage : ∀ b rest, w.stage ≠ .pushing b rest) : w.hasRoom s :=
  ⟨h, fun b rest e => absurd e (hstage b rest)⟩

theorem WriteProc.hasRoom_agents (w : WriteProc) {is : List Instr} {s : State} {es : List Event}
    (his : ∀ i ∈ is, isAgentOp i) (h : run is s = some es) (hw : w.hasRoom s) : w.hasRoom (finish s es) := by
  refine run_agents_keeps (P := w.hasRoom) (fun hi he hP => ?_) his h hw
  have hlen := exec_agent_txFifo hi he
  rw [WriteProc.hasRoom, exec_params he]
  exact ⟨hlen.trans hP.1, fun b rest hs hf => hlen.trans_lt (hP.2 b rest hs hf)⟩

theorem WriteProc.next_stage_ne_pushing_of_poll (k : Nat) (bs : List Byte) (b : Byte) (rest : List Byte) :
    (WriteProc.next .poll k bs).stage ≠ .pushing b rest := by
  cases bs <;> simp [WriteProc.next]

/-- Before a byte a `write` asks for no room. -/
theorem WriteProc.hasRoom_next (form : WaitForm) (k : Nat) (bs : List Byte) {s : State}
    (h : s.S.TXF.length ≤ s.params.txFifoCap) : (WriteProc.next form k bs).hasRoom s := by
  refine ⟨h, fun b rest hs hf => ?_⟩
  rw [WriteProc.next_form] at hf
  subst hf
  exact absurd hs (WriteProc.next_stage_ne_pushing_of_poll k bs b rest)

/-- One operation of a `write`: the byte it has accepted, if any, is the next of those still to push. -/
theorem WriteProc.turn {w : WriteProc} {i : Instr} {s t : State} {r : Response} (hw : w.hasRoom s)
    (hi : w.issue = some i) (he : exec i s = .next t) (hr : t.resp = some r) :
    w.pending = Event.txAccepted ⟨i, s, t⟩ ++ (w.after r).pending ∧ (w.after r).hasRoom t := by
  obtain ⟨form, stage, k⟩ := w
  cases stage with
  | returned => cases hi
  | polling b rest =>
    cases hi
    cases he
    cases hr
    have hfull := (statusWord_bits s.params s.S).2.2.1
    simp only [WriteProc.after]
    split
    case isTrue hbit =>
      rw [hfull, Bool.not_eq_true', ← Bool.not_eq_true, fifoFull_iff] at hbit
      exact ⟨rfl, hw.1, fun _ _ _ _ => lt_of_le_of_ne hw.1 hbit⟩
    case isFalse => exact ⟨rfl, WriteProc.hasRoom_of_not_pushing hw.1 (by simp)⟩
  | starting rest =>
    cases hi
    obtain ⟨-, rfl⟩ | ⟨-, rfl⟩ := exec_txStart_cases he <;>
    · cases hr
      exact ⟨(WriteProc.next_pending form k rest).symm, WriteProc.hasRoom_next form k rest hw.1⟩
  | pushing b rest =>
    cases hi
    obtain ⟨hfull, rfl⟩ | ⟨hroom, rfl⟩ := exec_txPush_cases he
    · cases hr
      have hform : form ≠ .poll := fun e => (hw.2 b rest rfl e).ne hfull
      have hafter : (WriteProc.after ⟨form, .pushing b rest, k⟩ Response.rejected) = ⟨form, .pushing b rest, k⟩ := by
        simp [WriteProc.after, Response.rejected, hform]
      rw [hafter]
      exact ⟨rfl, hw⟩
    · cases hr
      refine ⟨rfl, WriteProc.hasRoom_of_not_pushing ?_ (by simp [WriteProc.after, Response.done])⟩
      have hle := hw.1
      simp
      omega

/-- A `write` that has returned has had accepted exactly what it had still to push, and counts it. -/
theorem runWrite_accepts : ∀ {turns : List Turn} {w w' : WriteProc} {s : State} {es : List Event} {n : Nat},
    (∀ turn ∈ turns, ∀ i ∈ turn.others, isAgentOp i) → w.hasRoom s → runWrite turns w s = some (w', es) →
    w'.bytesWritten = some n → n = w.written + w.pending.length ∧ es.flatMap Event.txAccepted = w.pending
  | [], w, w', s, es, n, _, _, h, hn => by
    cases h
    obtain ⟨rfl, hp⟩ := WriteProc.bytesWritten_eq hn
    exact ⟨by rw [hp]; rfl, hp.symm⟩
  | turn :: turns, w, w', s, es, n, hturns, hw, h, hn => by
    obtain ⟨-, rfl, rfl⟩ | ⟨i, es1, t, r, es2, hi, hothers, he, hr, hrest, rfl⟩ := hostRun_cons h
    · obtain ⟨rfl, hp⟩ := WriteProc.bytesWritten_eq hn
      exact ⟨by rw [hp]; rfl, hp.symm⟩
    · have hagents := hturns turn List.mem_cons_self
      obtain ⟨hpending, hw'⟩ := WriteProc.turn (w.hasRoom_agents hagents hothers hw) hi he hr
      obtain ⟨hcount, hacc⟩ := runWrite_accepts (fun u hu => hturns u (List.mem_cons_of_mem _ hu)) hw' hrest hn
      constructor
      · rw [hcount, WriteProc.after_total]
      · rw [List.flatMap_append, List.flatMap_cons, txAccepted_agents (agentOps_of_run hagents hothers), hacc,
          List.nil_append, hpending]

/-! ## `flush` -/

/-- The modulator is not idle while a byte is queued. -/
def idleOnlyWhenEmpty (s : State) : Prop := s.S.M.sending = false → s.S.TXF = []

/-- The agents keep the modulator from idling while a byte is queued (70_reset_and_hazards.md R306). -/
theorem exec_agent_idleOnlyWhenEmpty {i : Instr} {s t : State} (hi : isAgentOp i) (he : exec i s = .next t)
    (h : idleOnlyWhenEmpty s) : idleOnlyWhenEmpty t := by
  intro hoff
  cases hon : s.S.M.sending with
  | true =>
    obtain ⟨-, -, -, -, hempty⟩ := modulatorStopsOnlyWithAnEmptyFifo i s t hi.ne_init he hon hoff
    exact hempty
  | false =>
    have hlen := exec_agent_txFifo hi he
    rw [h hon] at hlen
    exact List.length_eq_zero_iff.1 (Nat.le_zero.1 hlen)

/-- A status read leaves the block, and its response ends a `flush` exactly where the modulator is idle. -/
theorem exec_rdStatus_flushEnds {s t : State} {r : Response} (he : exec .rdStatus s = .next t)
    (hr : t.resp = some r) : t.S = s.S ∧ (flushEnds r = true ↔ t.S.M.sending = false) := by
  cases he
  cases hr
  exact ⟨rfl, flushEnds_iff _ _⟩

/-- A `flush` that has returned does nothing more. -/
theorem runFlush_ended {turns : List Turn} {l : Loop} {s : State} {es : List Event}
    (h : runFlush turns .ended s = some (l, es)) : es = [] := by
  cases turns with
  | nil => cases h; rfl
  | cons turn turns =>
    obtain ⟨-, -, rfl⟩ | ⟨i, -, -, -, -, hi, -⟩ := hostRun_cons h
    · rfl
    · cases hi

/-- The operations of a turn of `flush` and of the turns after it. -/
theorem flushOps_of_turn {es1 es2 : List Event} {e0 : Event} (h1 : ∀ e ∈ es1, isAgentOp e.op) (h0 : e0.op = .rdStatus)
    (h2 : ∀ e ∈ es2, e.op = .rdStatus ∨ isAgentOp e.op) :
    ∀ e ∈ es1 ++ e0 :: es2, e.op = .rdStatus ∨ isAgentOp e.op :=
  List.forall_mem_append.2 ⟨fun e he => .inr (h1 e he), List.forall_mem_cons.2 ⟨.inl h0, h2⟩⟩

/-- A `flush` that has returned did so on a response given by an idle modulator. -/
theorem runFlush_ends : ∀ {turns : List Turn} {s : State} {es : List Event},
    (∀ turn ∈ turns, ∀ i ∈ turn.others, isAgentOp i) → idleOnlyWhenEmpty s →
    runFlush turns .asking s = some (.ended, es) →
    (∀ e ∈ es, e.op = .rdStatus ∨ isAgentOp e.op) ∧ (finish s es).S.M.sending = false ∧ (finish s es).S.TXF = []
  | [], s, es, _, _, h => by cases h
  | turn :: turns, s, es, hturns, hidle, h => by
    obtain ⟨hi, -⟩ | ⟨i, es1, t, r, es2, hi, hothers, he, hr, hrest, rfl⟩ := hostRun_cons h
    · cases hi
    · have hagents := hturns turn List.mem_cons_self
      have hops := agentOps_of_run hagents hothers
      have hidle' := run_agents_keeps (P := idleOnlyWhenEmpty) exec_agent_idleOnlyWhenEmpty hagents hothers hidle
      cases hi
      obtain ⟨hS, hends⟩ := exec_rdStatus_flushEnds he hr
      have hidleT : idleOnlyWhenEmpty t := by rw [idleOnlyWhenEmpty, hS]; exact hidle'
      rw [finish_append, finish_cons]
      cases hend : flushEnds r with
      | true =>
        have hoff := hends.1 hend
        simp only [flushAfter, Loop.after_asking, hend, if_true] at hrest
        obtain rfl := runFlush_ended hrest
        exact ⟨flushOps_of_turn hops rfl (by simp), hoff, hidleT hoff⟩
      | false =>
        simp only [flushAfter, Loop.after_asking, hend, Bool.false_eq_true, if_false] at hrest
        obtain ⟨hops2, hfinish⟩ := runFlush_ends (fun u hu => hturns u (List.mem_cons_of_mem _ hu)) hidleT hrest
        exact ⟨flushOps_of_turn hops rfl hops2, hfinish⟩

/-- Settles O60. -/
theorem writeAndFlushDoWhatTheyPromise : Obligations.WriteAndFlushDoWhatTheyPromise := by
  refine ⟨fun bs resps => events_next bs 0 resps, ?write, ?flush⟩
  case write =>
    intro form bs turns s w es n hturns hle h hn
    obtain ⟨hcount, hacc⟩ := runWrite_accepts hturns (WriteProc.hasRoom_next form 0 bs hle) h hn
    rw [WriteProc.next_pending] at hcount hacc
    rw [WriteProc.next_written, Nat.zero_add] at hcount
    exact ⟨hcount, hacc⟩
  case flush =>
    intro turns s es hturns hon h
    exact runFlush_ends hturns (fun hoff => absurd (hon.symm.trans hoff) (by decide)) h

end Sys2Proof.Machine
end
